-- ==== Sys2Proof/Word.lean ====
section
/-! DEFINITION. The word types of the block, at the widths of 00_scope.md R5 and 10_state.md R20. -/

namespace Sys2Proof

/-- One byte: a header byte, a name byte, an 8-bit register. -/
abbrev Byte := BitVec 8

/-- A command word, `CMDW = 68` bits: `op` in bits 67 to 64, `arg` in bits 63 to 0 (30_encoding.md R96). -/
abbrev CmdWord := BitVec 68

/-- A value of the read response port, `RSPW = 64` bits (30_encoding.md R101). -/
abbrev Rsp := BitVec 64

/-- A file offset or a file size, `OFFW = 64` bits (00_scope.md R5). -/
abbrev Offset := BitVec 64

/-- The checksum register, `CRC_W = 16` bits (00_scope.md R5). -/
abbrev CrcWord := BitVec 16

/-- An index of the header space: 0 to 127, `HDR_LEN = 128` (20_memory.md R60). No other index exists. -/
abbrev HAddr := Fin 128

/-- An index of the name array: 0 to 62 (10_state.md R31). -/
abbrev NameIdx := Fin 63

/-- A header block seen as its 128 bytes, byte 0 first (00_scope.md R7). -/
abbrev Header := HAddr → Byte

end Sys2Proof
end

