-- ==== Sys2Proof/Config.lean ====
section
/-! DEFINITION. The shapes of the block's parameters (00_scope.md R5): the checksum parameter record, the error
taxonomy, the configuration record. The one configuration this hardware has is `config`, in Machine/Params.lean. The
widths of R5 (`CRC_W`, `HDR_LEN`, `OFFW`, `CMDW`, `RSPW`) are types of Word.lean. The spec gives every parameter a
value and leaves no result of a command open, so no free value stands here. -/

namespace Sys2Proof

/-- `ChecksumParameters`, for a register of `w` bits (40_checksum_engine.md R120). The polynomial is given without its
top term. -/
structure ChecksumParameters (w : Nat) where
  polynomial : BitVec w
  initial : BitVec w
  finalXor : BitVec w
  reflectInput : Bool
  reflectOutput : Bool
  byteSwapOutput : Bool
deriving DecidableEq, Repr

/-- The closed set of seven errors, in the source's order (60_exceptions.md R190). -/
inductive TaxonomyError where
  | noSuchFile | invalidFile | tooSmall | notContainerFormat | versionTooNew | checksumMismatch | ioError
deriving DecidableEq, Repr

/-- The parameters of 00_scope.md R5. -/
structure Config where
  /-- `CRC_POLY`, `CRC_INIT`, `CRC_XOROUT`, `CRC_REFIN`, `CRC_REFOUT`, `CRC_SWAP` -/
  crc : ChecksumParameters 16
  /-- `BLOCK`: alignment unit of segments in bytes -/
  block : Nat
  /-- `HDR_LEN`: header size in bytes, where the file's first region starts -/
  hdrLen : Nat
  /-- `CRC_SPAN`: the checksum covers header bytes [0, CRC_SPAN) -/
  crcSpan : Nat
  offMarker : HAddr
  offNlen : HAddr
  offName : Nat
  offType : Nat
  offDsize : Nat
  offRsize : Nat
  offClen : Nat
  offShsize : Nat
  offMinver : HAddr
  offCrc : Nat
  nameMin : Nat
  nameMax : Nat
  /-- `MAX_VER`: largest supported minimum-compatible version -/
  maxVer : Byte
  /-- `PAD_WHEN_ALIGNED`: padding after a non-empty region whose length is a multiple of `BLOCK` -/
  padWhenAligned : Nat
  /-- `ERRCODE`: the numeric code of each error -/
  errCode : TaxonomyError → Byte

end Sys2Proof
end

