-- ==== Sys2Proof/Machine/Params.lean ====
section
/-! DEFINITION. The one configuration of this hardware (00_scope.md R5). -/

namespace Sys2Proof

/-- `p_x`: "XMODEM-style 16-bit, polynomial 0x1021, initial 0, no final xor, no reflection, no byte-swap"
(40_checksum_engine.md R126). -/
def xmodem : ChecksumParameters 16 where
  polynomial := 0x1021
  initial := 0x0000
  finalXor := 0x0000
  reflectInput := false
  reflectOutput := false
  byteSwapOutput := false

/-- The numeric codes of 60_exceptions.md R191 (log 7). -/
def errCodeTable : TaxonomyError → Byte
  | .noSuchFile => 1
  | .invalidFile => 2
  | .tooSmall => 3
  | .notContainerFormat => 4
  | .versionTooNew => 5
  | .checksumMismatch => 6
  | .ioError => 7

/-- The values of 00_scope.md R5. `padWhenAligned` rests on 90_conflicts.md C1 (log 6), `errCode` on decision D9
(log 7). -/
def config : Config where
  crc := xmodem
  block := 128
  hdrLen := 128
  crcSpan := 124
  offMarker := 0x00
  offNlen := 0x01
  offName := 0x02
  offType := 0x41
  offDsize := 0x53
  offRsize := 0x57
  offClen := 0x63
  offShsize := 0x78
  offMinver := 0x7B
  offCrc := 0x7C
  nameMin := 1
  nameMax := 63
  maxVer := 0x81
  padWhenAligned := 0
  errCode := errCodeTable

end Sys2Proof
end

