-- ==== Sys2Proof/Machine/Checksum.lean ====
section
/-! DEFINITION. The checksum engine: the generic function and the block's one instance (40_checksum_engine.md R120 to
R126). -/

namespace Sys2Proof.Machine

/-- The first `k` terms of the sum of 40_checksum_engine.md R121. -/
def bitrevTerms {w : Nat} (x : BitVec w) : Nat → BitVec w
  | 0 => 0
  | k + 1 => bitrevTerms x k ||| (if x.getLsbD k then BitVec.twoPow w (w - 1 - k) else 0)

/-- `bitrev_W(x)`: bit `i` of the result is bit `W-1-i` of `x` (40_checksum_engine.md R121). -/
def bitrev {w : Nat} (x : BitVec w) : BitVec w := bitrevTerms x w

/-- Bytes 0 to `k-1` of the swapped value; `m` is the number of bytes of the register (40_checksum_engine.md R122). -/
def byteswapTerms {w : Nat} (x : BitVec w) (m : Nat) : Nat → BitVec w
  | 0 => 0
  | k + 1 => byteswapTerms x m k ||| ((x.extractLsb' (8 * (m - 1 - k)) 8).setWidth w <<< (8 * k))

/-- `byteswap_W(x)`: the bytes of `x` in the opposite order (40_checksum_engine.md R122). -/
def byteswap {w : Nat} (x : BitVec w) : BitVec w := byteswapTerms x (w / 8) (w / 8)

/-- One round: test the top bit, shift left, xor the polynomial after the shift (40_checksum_engine.md R123). -/
def crcRound {w : Nat} (p : ChecksumParameters w) (r : BitVec w) : BitVec w :=
  if r.msb then (r <<< 1) ^^^ p.polynomial else r <<< 1

/-- `k` rounds. -/
def crcRounds {w : Nat} (p : ChecksumParameters w) : Nat → BitVec w → BitVec w
  | 0, r => r
  | k + 1, r => crcRounds p k (crcRound p r)

/-- `crc_byte_W(reg, b, p)` (40_checksum_engine.md R123). -/
def crcByte {w : Nat} (p : ChecksumParameters w) (reg : BitVec w) (b : Byte) : BitVec w :=
  let b' := if p.reflectInput then bitrev b else b
  crcRounds p 8 (reg ^^^ (b'.setWidth w <<< (w - 8)))

/-- `crc_final_W(reg, p)`: reflect, xor, swap, in this order (40_checksum_engine.md R124). -/
def crcFinal {w : Nat} (p : ChecksumParameters w) (reg : BitVec w) : BitVec w :=
  let r := if p.reflectOutput then bitrev reg else reg
  let r := r ^^^ p.finalXor
  if p.byteSwapOutput then byteswap r else r

/-- The register after the bytes of `data`, from `reg` (40_checksum_engine.md R125, steps 2 and 3). -/
def crcFold {w : Nat} (p : ChecksumParameters w) (reg : BitVec w) (data : List Byte) : BitVec w :=
  data.foldl (crcByte p) reg

/-- `compute(data, p)` (40_checksum_engine.md R125). Widths that are not a multiple of 8, or below 8, have no meaning:
no answer (decision D5, 93_implementation_defined.md U8; log 14). -/
def compute {w : Nat} (data : List Byte) (p : ChecksumParameters w) : Option (BitVec w) :=
  if 8 ≤ w ∧ w % 8 = 0 then some (crcFinal p (crcFold p p.initial data)) else none

/-- `x16_byte(reg, b)` (40_checksum_engine.md R126). -/
def x16Byte (reg : CrcWord) (b : Byte) : CrcWord := crcByte config.crc reg b

/-- `X16(data)`: the block's instance (40_checksum_engine.md R126). -/
def x16 (data : List Byte) : CrcWord := crcFinal config.crc (crcFold config.crc config.crc.initial data)

end Sys2Proof.Machine
end

