-- ==== Sys2Proof/Syntax.lean ====
section
/-! DEFINITION. The syntax: the registers an `RD` can name and the five commands (spec/opcode_table.json). -/

namespace Sys2Proof

/-- What the operand of `RD` names: the registers of 30_encoding.md R100, each under its own name, the elements of
the two byte arrays, or a number the table leaves unassigned. -/
inductive Reg where
  | status | ph | hcnt | perr | crc | crcst | verseen | maxver | nlen | typeTag
  | dsize | rsize | clen | shsize | fsize | pres | doff | roff | coff
  /-- `NAME[i]` -/
  | name (i : NameIdx)
  /-- `HBUF[i]` -/
  | hbuf (i : HAddr)
  /-- a number that 30_encoding.md R100 assigns to no register -/
  | unassigned (r : Byte)
deriving DecidableEq, Repr

/-- The commands, one constructor per row of spec/opcode_table.json (30_encoding.md R97). -/
inductive Instr where
  /-- `RST`: soft reset (43_control_commands.md R180) -/
  | rst
  /-- `LDB b`: load header byte (40_checksum_engine.md R129) -/
  | ldb (b : Byte)
  /-- `DEC`: validate and decode the loaded header (41_header_decoder.md R148) -/
  | dec
  /-- `LOC n`: locate the segments of a file of `n` bytes (42_segment_locator.md R168) -/
  | loc (n : Offset)
  /-- `RD r`: read register (43_control_commands.md R181) -/
  | rd (r : Reg)
deriving DecidableEq, Repr

end Sys2Proof
end

