-- ==== Sys2Proof/WellFormed.lean ====
section
/-! DEFINITION. Which terms of `Instr` a command word can stand for. The operand types carry their own ranges, so one
check remains: the operand `unassigned r` of `RD` names a number that 30_encoding.md R100 leaves unassigned. -/

namespace Sys2Proof

/-- "Unassigned numbers: 0x13 to 0x3F and 0x7F" (30_encoding.md R100). -/
def unassignedNumber (r : Byte) : Bool :=
  (0x13 ≤ r.toNat && r.toNat ≤ 0x3F) || r.toNat == 0x7F

/-- The operand of `RD` is a register of the table, or a number the table leaves out. -/
def Reg.wf : Reg → Bool
  | .status | .ph | .hcnt | .perr | .crc | .crcst | .verseen | .maxver | .nlen | .typeTag
  | .dsize | .rsize | .clen | .shsize | .fsize | .pres | .doff | .roff | .coff
  | .name _ | .hbuf _ => true
  | .unassigned r => unassignedNumber r

/-- A command that some command word encodes. -/
def Instr.wf : Instr → Bool
  | .rst | .ldb _ | .dec | .loc _ => true
  | .rd r => r.wf

end Sys2Proof
end

