-- ==== Sys2Proof/Decode.lean ====
section
/-! DEFINITION. Command words to commands and back (30_encoding.md R96 to R101). -/

namespace Sys2Proof

/-- Why a command word is illegal (30_encoding.md R99), one name per case. -/
inductive IllegalWord where
  /-- `op` is 0x0 or 0x6 to 0xF -/
  | reservedOp (op : BitVec 4)
  /-- `RST` with a bit of `arg` set -/
  | rstArg
  /-- `LDB` with a bit of `arg[63:8]` set -/
  | ldbArg
  /-- `DEC` with a bit of `arg` set -/
  | decArg
  /-- `RD` with a bit of `arg[63:8]` set -/
  | rdArg
deriving DecidableEq, Repr

/-- `cmd[67:64]` (30_encoding.md R96). -/
def opField (w : CmdWord) : BitVec 4 := w.extractLsb' 64 4

/-- `cmd[63:0]` (30_encoding.md R96). -/
def argField (w : CmdWord) : BitVec 64 := w.extractLsb' 0 64

/-- `arg[7:0]`, the operand of `LDB` and `RD` (30_encoding.md R98). -/
def argLow (w : CmdWord) : Byte := w.extractLsb' 0 8

/-- `arg[63:8]`, must be 0 for `LDB` and `RD` (30_encoding.md R97). -/
def argHigh (w : CmdWord) : BitVec 56 := w.extractLsb' 8 56

/-- The register that number `r` names (30_encoding.md R100). -/
def decodeReg (r : Byte) : Reg :=
  if h : r.toNat < 0x40 then
    match r.toNat with
    | 0x00 => .status
    | 0x01 => .ph
    | 0x02 => .hcnt
    | 0x03 => .perr
    | 0x04 => .crc
    | 0x05 => .crcst
    | 0x06 => .verseen
    | 0x07 => .maxver
    | 0x08 => .nlen
    | 0x09 => .typeTag
    | 0x0A => .dsize
    | 0x0B => .rsize
    | 0x0C => .clen
    | 0x0D => .shsize
    | 0x0E => .fsize
    | 0x0F => .pres
    | 0x10 => .doff
    | 0x11 => .roff
    | 0x12 => .coff
    | _ => .unassigned r
  else if h' : r.toNat < 0x7F then .name ⟨r.toNat - 0x40, by omega⟩
  else if r.toNat < 0x80 then .unassigned r
  else .hbuf ⟨r.toNat - 0x80, by omega⟩

/-- The decoder: total on all 2^68 words, rejecting by name (30_encoding.md R97, R99, R104). -/
def decodeWord (w : CmdWord) : Except IllegalWord Instr :=
  match (opField w).toNat with
  | 0x1 => if argField w = 0 then .ok .rst else .error .rstArg
  | 0x2 => if argHigh w = 0 then .ok (.ldb (argLow w)) else .error .ldbArg
  | 0x3 => if argField w = 0 then .ok .dec else .error .decArg
  | 0x4 => .ok (.loc (argField w))
  | 0x5 => if argHigh w = 0 then .ok (.rd (decodeReg (argLow w))) else .error .rdArg
  | _ => .error (.reservedOp (opField w))

/-- The number of a register (30_encoding.md R100). -/
def Reg.number : Reg → Byte
  | .status => 0x00
  | .ph => 0x01
  | .hcnt => 0x02
  | .perr => 0x03
  | .crc => 0x04
  | .crcst => 0x05
  | .verseen => 0x06
  | .maxver => 0x07
  | .nlen => 0x08
  | .typeTag => 0x09
  | .dsize => 0x0A
  | .rsize => 0x0B
  | .clen => 0x0C
  | .shsize => 0x0D
  | .fsize => 0x0E
  | .pres => 0x0F
  | .doff => 0x10
  | .roff => 0x11
  | .coff => 0x12
  | .name i => BitVec.ofNat 8 (0x40 + i.val)
  | .hbuf i => BitVec.ofNat 8 (0x80 + i.val)
  | .unassigned r => r

/-- The operation number of a command (30_encoding.md R97). -/
def Instr.op : Instr → BitVec 4
  | .rst => 0x1
  | .ldb _ => 0x2
  | .dec => 0x3
  | .loc _ => 0x4
  | .rd _ => 0x5

/-- The operand field of a command; unused bits are 0 (30_encoding.md R97, R98). -/
def Instr.arg : Instr → BitVec 64
  | .rst => 0
  | .ldb b => b.setWidth 64
  | .dec => 0
  | .loc n => n
  | .rd r => r.number.setWidth 64

/-- The encoder: `op ## arg` (30_encoding.md R96). -/
def encode (i : Instr) : CmdWord := i.op ++ i.arg

/-- The number `w` of `nbits` bits as a command word, bits above `nbits` being 0; nothing where it has a bit above
bit 67 (log 9). -/
def tableWord (nbits w : Nat) : Option CmdWord :=
  if w % 2 ^ nbits < 2 ^ 68 then some (BitVec.ofNat 68 (w % 2 ^ nbits)) else none

/-- The command the decoder reads from a word of spec/opcode_table.json. A command is one word, so the table's bit
numbering is the port's own. -/
def decodeTableWord (nbits w : Nat) : Option Instr :=
  match tableWord nbits w with
  | none => none
  | some c =>
    match decodeWord c with
    | .ok i => some i
    | .error _ => none

end Sys2Proof
end

