-- ==== Sys2Proof/Machine/State.lean ====
section
/-! DEFINITION. The state of the block (10_state.md R20), its ports, the reset state (R44), the stop reasons. -/

namespace Sys2Proof.Machine

/-- The header buffer as data: cells (index, byte), indices rising and below 128, no cell holding 0; an index without a
cell holds 0x00, its reset value (10_state.md R21, R44; log 12). `Memory.wf` says the form. -/
abbrev Memory := List Host.Cell

/-- `PH`: the phase of the pass (10_state.md R24). -/
inductive Phase where
  /-- collecting header bytes -/
  | load
  /-- the header was decoded and is valid -/
  | hdr
  /-- the segments were located; the pass ended with success -/
  | done
  /-- a taxonomy error was raised; the pass ended with failure -/
  | fail
deriving DecidableEq, Repr

/-- One input from outside the block: a word on the command port (30_encoding.md R96), or the reset input asserted
(70_reset_and_hazards.md R220; log 2). -/
inductive PortInput where
  | command (w : CmdWord)
  | hardReset
deriving DecidableEq, Repr

/-- The registers and byte arrays of the block: exactly the table of 10_state.md R20. -/
structure Regs where
  /-- `HBUF[0..127]` (R21) -/
  hbuf : Memory
  /-- `HCNT` (R22) -/
  hcnt : Byte
  /-- `CRC` (R23) -/
  crc : CrcWord
  /-- `PH` (R24) -/
  ph : Phase
  /-- `STATUS` (R25) -/
  status : Byte
  /-- `PERR` (R26) -/
  perr : Bool
  /-- `VERSEEN` (R27) -/
  verseen : Byte
  /-- `MAXVER` (R28); nothing but reset writes it (log 11) -/
  maxver : Byte
  /-- `CRCST` (R29) -/
  crcst : CrcWord
  /-- `NLEN` (R30) -/
  nlen : Byte
  /-- `NAME[0..62]` (R31) -/
  name : Vector Byte 63
  /-- `TYPE` (R32) -/
  typeTag : BitVec 32
  /-- `DSIZE` (R33) -/
  dsize : BitVec 32
  /-- `RSIZE` (R34) -/
  rsize : BitVec 32
  /-- `CLEN` (R35) -/
  clen : BitVec 16
  /-- `SHSIZE` (R36) -/
  shsize : BitVec 16
  /-- `FSIZE` (R37) -/
  fsize : Offset
  /-- `PRES`: bit 0 data, bit 1 resource, bit 2 comment (R38) -/
  pres : BitVec 3
  /-- `DOFF` (R39) -/
  doff : Offset
  /-- `ROFF` (R39) -/
  roff : Offset
  /-- `COFF` (R39) -/
  coff : Offset
deriving DecidableEq, Repr

/-- The machine: the block's registers, and its two ports, which the spec does not count as state (10_state.md R42). -/
structure State where
  /-- the registers of 10_state.md R20 -/
  regs : Regs
  /-- what the host puts on the command port and the reset input, oldest first (log 1) -/
  inputs : List PortInput
  /-- what the input taken last put on the response port, if it put anything (log 3) -/
  response : Option Rsp
deriving DecidableEq, Repr

/-- Every register at the value of 10_state.md R44. -/
def Regs.reset : Regs where
  hbuf := []
  hcnt := 0
  crc := config.crc.initial
  ph := .load
  status := 0
  perr := false
  verseen := 0
  maxver := config.maxVer
  crcst := 0
  nlen := 0
  name := Vector.replicate 63 0
  typeTag := 0
  dsize := 0
  rsize := 0
  clen := 0
  shsize := 0
  fsize := 0
  pres := 0
  doff := 0
  roff := 0
  coff := 0

/-- The machine right after reset, with nothing on its ports yet (70_reset_and_hazards.md R220, R221; logs 1, 3). -/
def State.reset : State where
  regs := Regs.reset
  inputs := []
  response := none

/-- The stops with a fault: none. "No behaviour of this block is treated as fault or stuck"
(93_implementation_defined.md; log 15). A taxonomy error is a next state (60_exceptions.md R196). -/
inductive Fault
deriving DecidableEq, Repr

/-- The stops without a meaning. A command the block does not accept is not one of them: its refusal is a next state
(43_control_commands.md R182). -/
inductive Refusal where
  /-- an instruction whose meaning is not written yet, by its mnemonic; raised by no arm now; safe -/
  | notModelled (mnemonic : String)
deriving DecidableEq, Repr

/-- The outcome of one step of this machine. -/
abbrev Result := Host.Outcome State Fault Refusal

end Sys2Proof.Machine
end

