-- ==== Sys2Proof/Machine/Memory.lean ====
section
/-! DEFINITION. The header space (20_memory.md R60 to R63): one byte read, one byte written, the canonical form, the
big-endian assembly of fields. -/

namespace Sys2Proof.Machine

/-- What an index without a cell holds: the reset contents of `HBUF` (10_state.md R44). -/
def Memory.unlisted : Byte := 0

/-- The byte of the first cell with index `a`. -/
def Memory.lookup : Memory → Nat → Byte
  | [], _ => Memory.unlisted
  | (k, x) :: rest, a => if a = k then x else Memory.lookup rest a

/-- The cell (`a`, `v`), or no cell where `v` is what an unlisted index holds. -/
def Memory.cell (a : Nat) (v : Byte) : Memory :=
  if v = Memory.unlisted then [] else [(a, v)]

/-- The cells with byte `v` at index `a`, in canonical form where they were. -/
def Memory.store : Memory → Nat → Byte → Memory
  | [], a, v => Memory.cell a v
  | (k, x) :: rest, a, v =>
    if a < k then Memory.cell a v ++ (k, x) :: rest
    else if a = k then Memory.cell a v ++ rest
    else (k, x) :: Memory.store rest a v

/-- The canonical form from index `lo` on: indices rising, below 128, no cell equal to what an unlisted index holds. -/
def Memory.wfFrom : Nat → Memory → Bool
  | _, [] => true
  | lo, (k, x) :: rest => lo ≤ k && k < 128 && x != Memory.unlisted && Memory.wfFrom (k + 1) rest

/-- The canonical form. -/
def Memory.wf (m : Memory) : Bool := Memory.wfFrom 0 m

/-- `HBUF[a]` (20_memory.md R60). -/
def Memory.read (m : Memory) (a : HAddr) : Byte := Memory.lookup m a.val

/-- `MemWrite(a, 1, v)`: `HBUF[a] <- v` (00_scope.md R8, 20_memory.md R61). -/
def Memory.write (m : Memory) (a : HAddr) (v : Byte) : Memory := Memory.store m a.val v

/-- The 128 bytes of a header block in order. -/
def headerBytes (h : Header) : List Byte := List.ofFn h

/-- `be(a, 2)`: the byte at the lowest offset is the most significant (20_memory.md R63). Defined only inside the
header (00_scope.md R8). -/
def be2 (h : Header) (a : Nat) (inside : a + 2 ≤ 128 := by decide) : BitVec 16 :=
  h ⟨a, by omega⟩ ++ h ⟨a + 1, by omega⟩

/-- `be(a, 4)` (20_memory.md R63). -/
def be4 (h : Header) (a : Nat) (inside : a + 4 ≤ 128 := by decide) : BitVec 32 :=
  h ⟨a, by omega⟩ ++ h ⟨a + 1, by omega⟩ ++ h ⟨a + 2, by omega⟩ ++ h ⟨a + 3, by omega⟩

end Sys2Proof.Machine
end

