-- ==== Sys2Proof/Machine/Ops.lean ====
section
/-! DEFINITION. The operations that commands share: error entry, refusal, reset, response, and taking an input. -/

namespace Sys2Proof.Machine

/-- `raise E`, the error entry: "STATUS <- ERRCODE(E); PH <- FAIL" (60_exceptions.md R196). Nothing is saved anywhere
else. What the command wrote before stays; it writes nothing after. -/
def Regs.raise (r : Regs) (e : TaxonomyError) : Regs :=
  { r with status := config.errCode e, ph := .fail }

/-- The way back from an error: there is no return command, only a reset, which puts every register at its reset value
(60_exceptions.md R198, 43_control_commands.md R180). -/
def Regs.restart (_ : Regs) : Regs := Regs.reset

/-- `refuse`: "PERR <- 1", no other register changes (43_control_commands.md R182). -/
def Regs.refuse (r : Regs) : Regs := { r with perr := true }

/-- A command that changes registers only. -/
def State.setRegs (s : State) (r : Regs) : State := { s with regs := r }

/-- `refuse`, for the machine (43_control_commands.md R182). -/
def State.refuse (s : State) : State := s.setRegs s.regs.refuse

/-- `respond v`: the value put on the read response port (00_scope.md R8, 30_encoding.md R101). -/
def State.respond (s : State) (v : Rsp) : State := { s with response := some v }

/-- The refusal of an illegal command word (30_encoding.md R99, 43_control_commands.md R182). "For RD the response is
0", also where a bit of `arg[63:8]` is set (R181). -/
def State.refuseWord (s : State) : IllegalWord → State
  | .reservedOp _ => s.refuse
  | .rstArg => s.refuse
  | .ldbArg => s.refuse
  | .decArg => s.refuse
  | .rdArg => (s.respond 0).refuse

/-- The hardware reset: "identical effect" to the command `RST` (70_reset_and_hazards.md R220). -/
def State.hardReset (s : State) : State := s.setRegs s.regs.restart

/-- The block takes the first input; the response of the input before it is no longer on the port (log 3). -/
def State.take (s : State) (rest : List PortInput) : State := { s with inputs := rest, response := none }

/-- The next input and the state in which it runs; nothing where the host gives none (30_encoding.md R96). -/
def State.nextInput (s : State) : Option (PortInput × State) :=
  match s.inputs with
  | [] => none
  | i :: rest => some (i, s.take rest)

/-- The host issues the command word `w` as the next one (log 5). -/
def State.issue (s : State) (w : CmdWord) : State := { s with inputs := .command w :: s.inputs }

end Sys2Proof.Machine
end

