-- ==== Sys2Proof/Machine/ChecksumEngine.lean ====
section
/-! DEFINITION. The command of the checksum engine: `LDB` (40_checksum_engine.md R129). -/

namespace Sys2Proof.Machine

/-- Byte `b` goes to index `i`, which is `HCNT`: into the buffer, and into the running checksum where `i` is below
`CRC_SPAN` (40_checksum_engine.md R129). -/
def Regs.loadByte (r : Regs) (i : HAddr) (b : Byte) : Regs :=
  { r with
    hbuf := r.hbuf.write i b
    crc := if i.val < config.crcSpan then x16Byte r.crc b else r.crc
    hcnt := r.hcnt + 1 }

/-- `LDB b`: "Accepted when PH = LOAD and HCNT < 128; otherwise refused" (40_checksum_engine.md R129; log 8). -/
def execLdb (b : Byte) (s : State) : Result :=
  if accepted : s.regs.ph = .load ∧ s.regs.hcnt.toNat < 128 then
    .next (s.setRegs (s.regs.loadByte ⟨s.regs.hcnt.toNat, accepted.2⟩ b))
  else .next s.refuse

end Sys2Proof.Machine
end

