-- ==== Sys2Proof/Machine/Operands.lean ====
section
/-! DEFINITION. Operand forms: the fields of the header at their fixed offsets, which `DEC` reads (30_encoding.md R90,
R93), and the register operand of `RD` (30_encoding.md R100, R101). -/

namespace Sys2Proof.Machine

/-- The compatibility marker, byte 0x00. -/
def fieldMarker (h : Header) : Byte := h config.offMarker

/-- The name length N, byte 0x01. -/
def fieldNlen (h : Header) : Byte := h config.offNlen

/-- Byte `i` of the name area, byte 0x02 + i (30_encoding.md R92). -/
def fieldNameByte (h : Header) (i : NameIdx) : Byte :=
  h ⟨config.offName + i.val, by have := i.isLt; show 2 + i.val < 128; omega⟩

/-- The type tag, bytes 0x41 to 0x44; its first byte in the file is the most significant (10_state.md R32). -/
def fieldType (h : Header) : BitVec 32 := be4 h config.offType

/-- The data-segment size, bytes 0x53 to 0x56. -/
def fieldDsize (h : Header) : BitVec 32 := be4 h config.offDsize

/-- The resource-segment size, bytes 0x57 to 0x5A. -/
def fieldRsize (h : Header) : BitVec 32 := be4 h config.offRsize

/-- The comment length, bytes 0x63 and 0x64. -/
def fieldClen (h : Header) : BitVec 16 := be2 h config.offClen

/-- The secondary-header size, bytes 0x78 and 0x79. -/
def fieldShsize (h : Header) : BitVec 16 := be2 h config.offShsize

/-- The minimum-compatible version, byte 0x7B. -/
def fieldMinver (h : Header) : Byte := h config.offMinver

/-- The stored checksum, bytes 0x7C and 0x7D (30_encoding.md R94). -/
def fieldCrc (h : Header) : BitVec 16 := be2 h config.offCrc

/-- `NAME` as `DEC` writes it: the `n` name bytes, then zeros (10_state.md R31). -/
def nameArray (h : Header) (n : Byte) : Vector Byte 63 :=
  Vector.ofFn fun i : Fin 63 => if i.val < n.toNat then fieldNameByte h i else 0

/-- The 2-bit value of `PH` (10_state.md R24). -/
def Phase.code : Phase → BitVec 2
  | .load => 0
  | .hdr => 1
  | .done => 2
  | .fail => 3

/-- "The register's value zero-extended to 64 bits" (30_encoding.md R101); nothing for an unassigned number. -/
def Regs.value (r : Regs) : Reg → Option Rsp
  | .status => some (r.status.setWidth 64)
  | .ph => some (r.ph.code.setWidth 64)
  | .hcnt => some (r.hcnt.setWidth 64)
  | .perr => some ((BitVec.ofBool r.perr).setWidth 64)
  | .crc => some (r.crc.setWidth 64)
  | .crcst => some (r.crcst.setWidth 64)
  | .verseen => some (r.verseen.setWidth 64)
  | .maxver => some (r.maxver.setWidth 64)
  | .nlen => some (r.nlen.setWidth 64)
  | .typeTag => some (r.typeTag.setWidth 64)
  | .dsize => some (r.dsize.setWidth 64)
  | .rsize => some (r.rsize.setWidth 64)
  | .clen => some (r.clen.setWidth 64)
  | .shsize => some (r.shsize.setWidth 64)
  | .fsize => some r.fsize
  | .pres => some (r.pres.setWidth 64)
  | .doff => some r.doff
  | .roff => some r.roff
  | .coff => some r.coff
  | .name i => some (r.name[i].setWidth 64)
  | .hbuf i => some ((r.hbuf.read i).setWidth 64)
  | .unassigned _ => none

end Sys2Proof.Machine
end

