-- ==== Sys2Proof/Machine/Control.lean ====
section
/-! DEFINITION. The control commands `RST` and `RD` (43_control_commands.md R180, R181). -/

namespace Sys2Proof.Machine

/-- `RST`: every register to its reset value, in every phase (43_control_commands.md R180). -/
def execRst (s : State) : Result := .next (s.setRegs s.regs.restart)

/-- `RD r`: respond with the register's value; an unassigned number responds 0 and is refused
(43_control_commands.md R181, 30_encoding.md R101). -/
def execRd (r : Reg) (s : State) : Result :=
  match s.regs.value r with
  | some v => .next (s.respond v)
  | none => .next (s.respond 0).refuse

end Sys2Proof.Machine
end

