-- ==== Sys2Proof/Machine/HeaderDecoder.lean ====
section
/-! DEFINITION. The header decoder: the function `decode` over a 128-byte block (41_header_decoder.md R140 to R145) and
the command `DEC` (R148). -/

namespace Sys2Proof.Machine

/-- The decoded header (00_scope.md R9, 41_header_decoder.md R140). -/
structure HeaderRecord where
  name : List Byte
  typeTag : BitVec 32
  dataSize : BitVec 32
  resourceSize : BitVec 32
  commentLength : BitVec 16
  secondaryHeaderSize : BitVec 16
deriving DecidableEq, Repr

/-- How `decode` fails, with what the error reports (41_header_decoder.md R140 to R144). -/
inductive HeaderFailure where
  | notContainerFormat
  | versionTooNew (encountered supported : Byte)
  | checksumMismatch (computed stored : CrcWord)
deriving DecidableEq, Repr

/-- The taxonomy entry of a failure (60_exceptions.md R190). -/
def HeaderFailure.error : HeaderFailure → TaxonomyError
  | .notContainerFormat => .notContainerFormat
  | .versionTooNew _ _ => .versionTooNew
  | .checksumMismatch _ _ => .checksumMismatch

/-- The checksum of header bytes [0, CRC_SPAN), on the raw bytes (41_header_decoder.md R144). -/
def headerChecksum (h : Header) : CrcWord := x16 ((headerBytes h).take config.crcSpan)

/-- The name length is legal: in [1, 63] (41_header_decoder.md R142). -/
def nameLengthOk (n : Byte) : Bool := config.nameMin ≤ n.toNat && n.toNat ≤ config.nameMax

/-- Step 5: extraction, which cannot fail (41_header_decoder.md R145). -/
def extractRecord (h : Header) : HeaderRecord where
  name := (List.ofFn (fieldNameByte h)).take (fieldNlen h).toNat
  typeTag := fieldType h
  dataSize := fieldDsize h
  resourceSize := fieldRsize h
  commentLength := fieldClen h
  secondaryHeaderSize := fieldShsize h

/-- `decode(h)`: five steps, in order, short-circuiting on the first failure (41_header_decoder.md R140 to R145). No
other byte is tested (R146). -/
def decodeHeader (h : Header) : Except HeaderFailure HeaderRecord :=
  if fieldMarker h ≠ 0 then .error .notContainerFormat
  else if ¬ nameLengthOk (fieldNlen h) then .error .notContainerFormat
  else if config.maxVer.toNat < (fieldMinver h).toNat then .error (.versionTooNew (fieldMinver h) config.maxVer)
  else if headerChecksum h ≠ fieldCrc h then .error (.checksumMismatch (headerChecksum h) (fieldCrc h))
  else .ok (extractRecord h)

/-- What `DEC` writes when every check has passed (41_header_decoder.md R148, step 5 and the last line). -/
def Regs.setRecord (r : Regs) (h : Header) : Regs :=
  { r with
    nlen := fieldNlen h
    name := nameArray h (fieldNlen h)
    typeTag := fieldType h
    dsize := fieldDsize h
    rsize := fieldRsize h
    clen := fieldClen h
    shsize := fieldShsize h
    ph := .hdr }

/-- `DEC` from the checksum step on (41_header_decoder.md R148, step 4): `CRC` against the stored checksum. -/
def Regs.decChecksum (r : Regs) (h : Header) : Regs :=
  let r := { r with crcst := fieldCrc h }
  if r.crc ≠ r.crcst then r.raise .checksumMismatch else r.setRecord h

/-- `DEC` from the version step on (41_header_decoder.md R148, step 3). -/
def Regs.decVersion (r : Regs) (h : Header) : Regs :=
  let r := { r with verseen := fieldMinver h }
  if r.maxver.toNat < (fieldMinver h).toNat then r.raise .versionTooNew else r.decChecksum h

/-- `DEC` once accepted (41_header_decoder.md R148): the short header first (decision D10; log 21), then steps 1 and 2,
then the rest. -/
def Regs.decode (r : Regs) : Regs :=
  let h := r.hbuf.read
  if r.hcnt.toNat < 128 then r.raise .tooSmall
  else if fieldMarker h ≠ 0 then r.raise .notContainerFormat
  else if ¬ nameLengthOk (fieldNlen h) then r.raise .notContainerFormat
  else r.decVersion h

/-- `DEC`: "Accepted when PH = LOAD; otherwise refused" (41_header_decoder.md R148). -/
def execDec (s : State) : Result :=
  if s.regs.ph = .load then .next (s.setRegs s.regs.decode) else .next s.refuse

end Sys2Proof.Machine
end

