-- ==== Sys2Proof/Machine/Flags.lean ====
section
/-! DEFINITION. The flags a command computes: `PRES`, with the bounds check that decides them (10_state.md R38,
42_segment_locator.md R162). `PERR` is set by `Regs.refuse` of Ops.lean alone. -/

namespace Sys2Proof.Machine

/-- The three segments, in the order `LOC` checks them (42_segment_locator.md R162). -/
inductive Segment where
  | data | resource | comment
deriving DecidableEq, Repr

/-- The bit of `PRES` that stands for a segment (10_state.md R38). -/
def Segment.flag : Segment → BitVec 3
  | .data => 0b001
  | .resource => 0b010
  | .comment => 0b100

/-- The required range `[base, base + len)` of a present segment lies in a file of `n` bytes: not `n < base + len`
(42_segment_locator.md R162). -/
def fits (n base len : Nat) : Bool := base + len ≤ n

/-- The bounds check of one segment in a file of `n` bytes: an absent segment is not checked, one that does not fit is
answered by nothing, one that fits gets its bit of `PRES` (42_segment_locator.md R162). -/
def checkSegment (n base len : Nat) (k : Segment) (pres : BitVec 3) : Option (BitVec 3) :=
  if len = 0 then some pres
  else if fits n base len then some (pres ||| k.flag)
  else none

end Sys2Proof.Machine
end

