-- ==== Sys2Proof/Machine/SegmentLocator.lean ====
section
/-! DEFINITION. The segment locator: padding, bases, bounds (42_segment_locator.md R160 to R163) and the command `LOC`
(R168). Sums are on natural numbers; none reaches 2^64 (R165; log 13). -/

namespace Sys2Proof.Machine

/-- `pad(s)`, the padding after a region of `s` bytes (42_segment_locator.md R160); the third line is the parameter
`PAD_WHEN_ALIGNED` (90_conflicts.md C1; log 6). An empty region adds none (R164). -/
def pad (s : Nat) : Nat :=
  if s = 0 then 0
  else if s % config.block ≠ 0 then config.block - s % config.block
  else config.padWhenAligned

/-- The base after a region of `len` bytes that starts at `base` (42_segment_locator.md R161). -/
def baseAfter (base len : Nat) : Nat := base + len + pad len

/-- `dataBase` (42_segment_locator.md R161). -/
def dataBase (sh : Nat) : Nat := baseAfter config.hdrLen sh

/-- `resBase` (42_segment_locator.md R161). -/
def resBase (sh d : Nat) : Nat := baseAfter (dataBase sh) d

/-- `commentBase` (42_segment_locator.md R161). -/
def commentBase (sh d r : Nat) : Nat := baseAfter (resBase sh d) r

/-- A layout as far as it was computed (42_segment_locator.md R163). -/
structure Layout where
  dataBase : Nat
  resBase : Option Nat
  commentBase : Option Nat
  present : BitVec 3
deriving DecidableEq, Repr

/-- `locate(sh, d, r, c, n)`: the full layout, or `TooSmall` with the part computed so far
(42_segment_locator.md R163). -/
def locate (sh d r c n : Nat) : Except Layout Layout :=
  let db := dataBase sh
  match checkSegment n db d .data 0 with
  | none => .error ⟨db, none, none, 0⟩
  | some p0 =>
    let rb := resBase sh d
    match checkSegment n rb r .resource p0 with
    | none => .error ⟨db, some rb, none, p0⟩
    | some p1 =>
      let cb := commentBase sh d r
      match checkSegment n cb c .comment p1 with
      | none => .error ⟨db, some rb, some cb, p1⟩
      | some p2 => .ok ⟨db, some rb, some cb, p2⟩

/-- `LOC` from the comment segment on (42_segment_locator.md R168): base, check, end of the pass. -/
def Regs.locComment (r : Regs) (n : Nat) : Regs :=
  let base := commentBase r.shsize.toNat r.dsize.toNat r.rsize.toNat
  let r := { r with coff := BitVec.ofNat 64 base }
  match checkSegment n base r.clen.toNat .comment r.pres with
  | none => r.raise .tooSmall
  | some p => { r with pres := p, ph := .done }

/-- `LOC` from the resource segment on (42_segment_locator.md R168). -/
def Regs.locResource (r : Regs) (n : Nat) : Regs :=
  let base := resBase r.shsize.toNat r.dsize.toNat
  let r := { r with roff := BitVec.ofNat 64 base }
  match checkSegment n base r.rsize.toNat .resource r.pres with
  | none => r.raise .tooSmall
  | some p => { r with pres := p }.locComment n

/-- `LOC` from the data segment on (42_segment_locator.md R168). -/
def Regs.locData (r : Regs) (n : Nat) : Regs :=
  let base := dataBase r.shsize.toNat
  let r := { r with doff := BitVec.ofNat 64 base }
  match checkSegment n base r.dsize.toNat .data r.pres with
  | none => r.raise .tooSmall
  | some p => { r with pres := p }.locResource n

/-- `LOC n` once accepted: the file size is latched first (42_segment_locator.md R168). -/
def Regs.locate (r : Regs) (n : Offset) : Regs := { r with fsize := n }.locData n.toNat

/-- `LOC n`: "Accepted when PH = HDR; otherwise refused" (42_segment_locator.md R168). -/
def execLoc (n : Offset) (s : State) : Result :=
  if s.regs.ph = .hdr then .next (s.setRegs (s.regs.locate n)) else .next s.refuse

end Sys2Proof.Machine
end

