-- ==== Sys2Proof/Machine/Dispatch.lean ====
section
/-! DEFINITION. One arm per command (spec/opcode_table.json). -/

namespace Sys2Proof.Machine

def exec (i : Instr) (s : State) : Host.Outcome State Fault Refusal :=
  match i with
  | .rst => Sys2Proof.Machine.execRst s
  | .ldb b => Sys2Proof.Machine.execLdb b s
  | .dec => Sys2Proof.Machine.execDec s
  | .loc n => Sys2Proof.Machine.execLoc n s
  | .rd r => Sys2Proof.Machine.execRd r s

end Sys2Proof.Machine
end

