-- ==== Sys2Proof/Machine/Step.lean ====
section
/-! DEFINITION. One step: the block takes the next input and runs it to its end (20_memory.md R68). -/

namespace Sys2Proof.Machine

/-- With no input the block holds its state (60_exceptions.md R203; log 4); a reset input resets it
(70_reset_and_hazards.md R220); a command word is decoded and run, or refused where it is illegal
(43_control_commands.md R182; log 10). -/
def step (s : State) : Host.Outcome State Fault Refusal :=
  match s.nextInput with
  | none => .next s
  | some (.hardReset, s') => .next s'.hardReset
  | some (.command w, s') =>
    match decodeWord w with
    | .ok i => exec i s'
    | .error e => .next (s'.refuseWord e)

/-- `s` with that command word as the next input; a number that is no command word places nothing (logs 5, 9). -/
def State.withFetchWord (s : State) (nbits w : Nat) : State :=
  match tableWord nbits w with
  | some c => s.issue c
  | none => s

end Sys2Proof.Machine
end

