-- ==== Sys2Proof/Safety.lean ====
section
/-! DEFINITION. The terms in which claims about whole passes are made: the views of 10_state.md R40 and R41, the
invariants of R46, what the registers owe the host (60_exceptions.md R206), and which states can occur. The error codes
3 to 6 are those of 60_exceptions.md R191 (log 7). -/

namespace Sys2Proof.Machine

/-- There is no record: every record register holds its reset value (10_state.md R40). -/
abbrev Regs.NoRecord (r : Regs) : Prop :=
  r.nlen = 0 ∧ r.name = Vector.replicate 63 0 ∧ r.typeTag = 0 ∧ r.dsize = 0 ∧ r.rsize = 0 ∧ r.clen = 0 ∧ r.shsize = 0

/-- There is no layout: every register `LOC` writes holds its reset value. -/
abbrev Regs.NoLayout (r : Regs) : Prop :=
  r.fsize = 0 ∧ r.pres = 0 ∧ r.doff = 0 ∧ r.roff = 0 ∧ r.coff = 0

/-- The pass failed in `DEC`: "HCNT < 128 means DEC raised it" where the code is 3 (10_state.md R46). -/
abbrev Regs.FailedInDec (r : Regs) : Prop := r.ph = .fail ∧ (r.status = 3 → r.hcnt.toNat < 128)

/-- The pass failed in `LOC`: code 3 with "HCNT = 128" (10_state.md R46). -/
abbrev Regs.FailedInLoc (r : Regs) : Prop := r.ph = .fail ∧ r.status = 3 ∧ r.hcnt = 128

/-- The header was decoded with success: the phases in which a record is held (10_state.md R46, item 6). DEDUCED: a FAIL
raised by LOC is one of them, although R40 says of FAIL without restriction that there is no record (log 22). -/
abbrev Regs.Decoded (r : Regs) : Prop := r.ph = .hdr ∨ r.ph = .done ∨ r.FailedInLoc

/-- The HeaderRecord view (10_state.md R40). -/
def Regs.recordView (r : Regs) : HeaderRecord where
  name := r.name.toList.take r.nlen.toNat
  typeTag := r.typeTag
  dataSize := r.dsize
  resourceSize := r.rsize
  commentLength := r.clen
  secondaryHeaderSize := r.shsize

/-- The SegmentLayout view (10_state.md R41). -/
def Regs.layoutView (r : Regs) : Layout where
  dataBase := r.doff.toNat
  resBase := some r.roff.toNat
  commentBase := some r.coff.toNat
  present := r.pres

/-- `locate(SHSIZE, DSIZE, RSIZE, CLEN, FSIZE)` (60_exceptions.md R206). -/
def Regs.located (r : Regs) : Except Layout Layout :=
  Sys2Proof.Machine.locate r.shsize.toNat r.dsize.toNat r.rsize.toNat r.clen.toNat r.fsize.toNat

/-- The invariants of 10_state.md R46, in its order. DEDUCED: where R40 and R46 differ on the record after a failed LOC,
`noRecord` and `record` follow R46, and R40's FAIL is read as one raised by DEC (log 22). -/
structure Regs.Inv (r : Regs) : Prop where
  count : r.hcnt.toNat ≤ 128
  unloaded : ∀ a : HAddr, r.hcnt.toNat ≤ a.val → r.hbuf.read a = 0
  running : r.crc = x16 ((headerBytes r.hbuf.read).take (min r.hcnt.toNat 124))
  statusFail : r.status = 0 ↔ r.ph ≠ .fail
  statusCode : r.status = 0 ∨ r.status = 3 ∨ r.status = 4 ∨ r.status = 5 ∨ r.status = 6
  noRecord : r.ph = .load ∨ r.FailedInDec → r.NoRecord ∧ r.NoLayout
  record : r.Decoded → r.hcnt = 128 ∧ 1 ≤ r.nlen.toNat ∧ r.nlen.toNat ≤ 63 ∧ r.hbuf.read 0 = 0 ∧
    (r.hbuf.read 0x7B).toNat ≤ 0x81 ∧ r.crc = r.crcst
  notDecoded : r.ph = .load → r.verseen = 0 ∧ r.crcst = 0
  maximum : r.maxver = 0x81
  notLocated : r.ph = .hdr → r.NoLayout

/-- What the registers show of a failed `decode`, beside `STATUS` (60_exceptions.md R192, R197). -/
def HeaderFailure.ShownIn (r : Regs) : HeaderFailure → Prop
  | .notContainerFormat => r.verseen = 0 ∧ r.crcst = 0
  | .versionTooNew encountered supported => r.verseen = encountered ∧ r.maxver = supported ∧ r.crcst = 0
  | .checksumMismatch computed stored =>
    r.verseen = r.hbuf.read 0x7B ∧ r.crc = computed ∧ r.crcst = stored ∧ computed ≠ stored

/-- What the registers owe the host (10_state.md R40, R41, 60_exceptions.md R206): the record equals `decode(HBUF)`, the
layout equals `locate(SHSIZE, DSIZE, RSIZE, CLEN, FSIZE)`, a failure is the one these functions answer. -/
structure Regs.Faithful (r : Regs) : Prop where
  record : r.Decoded → decodeHeader r.hbuf.read = .ok r.recordView
  layout : r.ph = .done → r.located = .ok r.layoutView
  layoutPart : r.FailedInLoc → ∃ l, r.located = .error l ∧ l.dataBase = r.doff.toNat ∧
    l.resBase.getD 0 = r.roff.toNat ∧ l.commentBase.getD 0 = r.coff.toNat ∧ l.present = r.pres
  failure : r.FailedInDec → (r.hcnt.toNat < 128 ∧ r.status = 3 ∧ r.verseen = 0 ∧ r.crcst = 0) ∨
    (r.hcnt = 128 ∧ ∃ e, decodeHeader r.hbuf.read = .error e ∧ r.status = config.errCode e.error ∧ e.ShownIn r)

/-- A register state that a pass can hold: canonical memory, the invariants of R46, and truth about the header. -/
structure Regs.Sound (r : Regs) : Prop where
  memory : r.hbuf.wf = true
  inv : r.Inv
  faithful : r.Faithful

/-- The command word `w` is refused in the state `r` (43_control_commands.md R182): a reserved `op`, a must-be-zero bit of
`arg` set, a phase condition that fails, an unassigned register number. -/
def Regs.Refuses (r : Regs) (w : CmdWord) : Prop :=
  let op := (w.extractLsb' 64 4).toNat
  op = 0x0 ∨ 0x6 ≤ op ∨
  (op = 0x1 ∧ w.extractLsb' 0 64 ≠ 0) ∨
  (op = 0x2 ∧ (w.extractLsb' 8 56 ≠ 0 ∨ r.ph ≠ .load ∨ r.hcnt = 128)) ∨
  (op = 0x3 ∧ (w.extractLsb' 0 64 ≠ 0 ∨ r.ph ≠ .load)) ∨
  (op = 0x4 ∧ r.ph ≠ .hdr) ∨
  (op = 0x5 ∧ (w.extractLsb' 8 56 ≠ 0 ∨
    (0x13 ≤ w.toNat % 256 ∧ w.toNat % 256 ≤ 0x3F) ∨ w.toNat % 256 = 0x7F))

/-- The header `h` holds these fields where 30_encoding.md R90 places them, multi-byte fields big-endian, and the
checksum of its first 124 bytes where R94 places it. -/
structure HeaderHolds (h : Header) (name : List Byte) (tag d r : BitVec 32) (c sh : BitVec 16) (v : Byte) : Prop where
  marker : h 0x00 = 0
  nameLength : (h 0x01).toNat = name.length
  nameBytes : ∀ (i : Nat) (hi : i < name.length) (ha : 2 + i < 128), h ⟨2 + i, ha⟩ = name[i]
  typeTag : ∀ k : Fin 4, h ⟨0x41 + k.val, by omega⟩ = tag.extractLsb' (8 * (3 - k.val)) 8
  dataSize : ∀ k : Fin 4, h ⟨0x53 + k.val, by omega⟩ = d.extractLsb' (8 * (3 - k.val)) 8
  resourceSize : ∀ k : Fin 4, h ⟨0x57 + k.val, by omega⟩ = r.extractLsb' (8 * (3 - k.val)) 8
  commentLength : ∀ k : Fin 2, h ⟨0x63 + k.val, by omega⟩ = c.extractLsb' (8 * (1 - k.val)) 8
  secondaryHeaderSize : ∀ k : Fin 2, h ⟨0x78 + k.val, by omega⟩ = sh.extractLsb' (8 * (1 - k.val)) 8
  version : h 0x7B = v
  checksum : ∀ k : Fin 2, h ⟨0x7C + k.val, by omega⟩ =
    (x16 ((headerBytes h).take 124)).extractLsb' (8 * (1 - k.val)) 8

/-- The bytes no field of 30_encoding.md R90 occupies in a header with a name of `n` bytes (R91). -/
def UnlistedByte (n : Nat) (a : HAddr) : Prop :=
  (2 + n ≤ a.val ∧ a.val ≤ 0x40) ∨ (0x45 ≤ a.val ∧ a.val ≤ 0x52) ∨ (0x5B ≤ a.val ∧ a.val ≤ 0x62) ∨
  (0x65 ≤ a.val ∧ a.val ≤ 0x77) ∨ a.val = 0x7A ∨ 0x7E ≤ a.val

/-- A safe run: no command has been refused since the last reset, the refusal mark of 93_implementation_defined.md
U9. -/
abbrev State.Unrefused (s : State) : Prop := s.regs.perr = false

/-- The input makes the block return to its reset values: the reset input, or the word of `RST`
(70_reset_and_hazards.md R220). -/
abbrev PortInput.Resets (i : PortInput) : Prop := i = .hardReset ∨ i = .command (encode .rst)

/-- The states that can occur: from reset, by the host giving inputs, and by steps. -/
inductive Reachable : State → Prop where
  | reset : Reachable State.reset
  | give {s : State} (i : PortInput) : Reachable s → Reachable { s with inputs := s.inputs ++ [i] }
  | step {s t : State} : Reachable s → step s = .next t → Reachable t

end Sys2Proof.Machine
end

