-- ==== Sys2Proof/Certificates/Slice0/Obligations.lean ====
section
/-! DEFINITION. The statements for the provers. Each docstring names the rule of spec/ it formalises. -/

open Sys2Proof Sys2Proof.Machine

/-! ## Encoding -/

/-- Command words written out from the table of 30_encoding.md R97 and the examples of R102. -/
def Obligations.WordsOfTheTableDecodeToTheirCommands : Prop :=
  decodeWord 0x10000000000000000#68 = .ok .rst ∧
  decodeWord 0x20000000000000031#68 = .ok (.ldb 0x31) ∧
  decodeWord 0x30000000000000000#68 = .ok .dec ∧
  decodeWord 0x40000000000000100#68 = .ok (.loc 256) ∧
  decodeWord 0x50000000000000004#68 = .ok (.rd .crc) ∧
  decodeWord 0x5000000000000007E#68 = .ok (.rd (.name 62)) ∧
  decodeWord 0x500000000000000D6#68 = .ok (.rd (.hbuf 0x56)) ∧
  decodeWord 0x5000000000000007F#68 = .ok (.rd (.unassigned 0x7F)) ∧
  decodeWord 0x00000000000000000#68 = .error (.reservedOp 0) ∧
  decodeWord 0x10000000000000001#68 = .error .rstArg

/-- Decode and encode agree, for every command and every operand (30_encoding.md R96, R97, R98, R100). -/
def Obligations.DecodeOfEncodeGivesTheCommandBack : Prop :=
  ∀ i : Instr, i.wf = true → decodeWord (encode i) = .ok i

/-- Every word the decoder accepts is the encoding of what it answers, which is well formed: no bit is dropped, no two
words mean the same command (30_encoding.md R97, R99). -/
def Obligations.EncodeOfDecodeGivesTheWordBack : Prop :=
  ∀ (w : CmdWord) (i : Instr), decodeWord w = .ok i → i.wf = true ∧ encode i = w

/-- "a word w is the command when w and mask = match" (30_encoding.md R97), and the operands are the bits R98 names. -/
def Obligations.WordIsItsCommandExactlyByMatchAndMask : Prop :=
  ∀ w : CmdWord,
    (decodeWord w = .ok .rst ↔ w &&& 0xFFFFFFFFFFFFFFFFF#68 = 0x10000000000000000#68) ∧
    (decodeWord w = .ok (.ldb (w.extractLsb' 0 8)) ↔ w &&& 0xFFFFFFFFFFFFFFF00#68 = 0x20000000000000000#68) ∧
    (decodeWord w = .ok .dec ↔ w &&& 0xFFFFFFFFFFFFFFFFF#68 = 0x30000000000000000#68) ∧
    (decodeWord w = .ok (.loc (w.extractLsb' 0 64)) ↔ w &&& 0xF0000000000000000#68 = 0x40000000000000000#68) ∧
    (decodeWord w = .ok (.rd (decodeReg (w.extractLsb' 0 8))) ↔
      w &&& 0xFFFFFFFFFFFFFFF00#68 = 0x50000000000000000#68)

/-! ## The step -/

/-- A step takes the first input and runs the command its word decodes to, with the response port emptied before it;
with no input the block holds its state. The two ports and the idle step are the model's (logs 1, 3, 4). -/
def Obligations.StepRunsTheDecodedCommand : Prop :=
  (∀ (s : State) (w : CmdWord) (rest : List PortInput) (i : Instr),
    s.inputs = .command w :: rest → decodeWord w = .ok i → i.wf = true →
      step s = exec i { s with inputs := rest, response := none }) ∧
  (∀ s : State, s.inputs = [] → step s = .next s)

/-- Every command, legal or not, in every state ends in a next state (70_reset_and_hazards.md R230), and takes exactly
one input from the model's queue (log 1). -/
def Obligations.EveryStepEndsInANextState : Prop :=
  ∀ s : State, ∃ t : State, step s = .next t ∧ t.inputs = s.inputs.tail

/-- Refusal (43_control_commands.md R182): in each of the listed cases PERR is set, no other register changes, for RD the
response is 0; and PERR stays set until a reset. -/
def Obligations.RefusedCommandSetsPerrAndNothingElse : Prop :=
  (∀ (s : State) (w : CmdWord) (rest : List PortInput),
    s.inputs = .command w :: rest → s.regs.Refuses w →
      ∃ t : State, step s = .next t ∧ t.regs = { s.regs with perr := true } ∧
        (w.extractLsb' 64 4 = 5#4 → t.response = some 0)) ∧
  ∀ (s t : State) (i : PortInput) (rest : List PortInput),
    s.inputs = i :: rest → ¬ i.Resets → s.regs.perr = true → step s = .next t → t.regs.perr = true

/-- PERR is sticky: set by every refused command and by nothing else, cleared only by a reset, 0 after reset
(10_state.md R26). The premise on HCNT is an invariant (10_state.md R46, item 1; log 8). -/
def Obligations.PerrIsSetByRefusalsAndClearedOnlyByReset : Prop :=
  State.reset.regs.perr = false ∧
  ∀ (s t : State) (i : PortInput) (rest : List PortInput),
    s.inputs = i :: rest → s.regs.hcnt.toNat ≤ 128 → step s = .next t →
      (t.regs.perr = true ↔
        (∃ w, i = .command w ∧ s.regs.Refuses w) ∨ (s.regs.perr = true ∧ ¬ i.Resets))

/-- The response port is driven exactly by the commands whose `op` is that of RD (30_encoding.md R101). What the port
holds after another command is the model's convention (log 3). -/
def Obligations.OnlyReadCommandsDriveTheResponsePort : Prop :=
  ∀ (s t : State) (w : CmdWord) (rest : List PortInput),
    s.inputs = .command w :: rest → step s = .next t →
      (t.response.isSome = true ↔ w.extractLsb' 64 4 = 5#4)

/-! ## RST and reset -/

/-- RST puts every register at the value of the reset table, in every state (10_state.md R44). -/
def Obligations.RstPutsEveryRegisterAtItsResetValue : Prop :=
  ∀ s : State, ∃ t : State, exec .rst s = .next t ∧ t.regs = State.reset.regs ∧
    (∀ a : HAddr, t.regs.hbuf.read a = 0) ∧ t.regs.hcnt = 0 ∧ t.regs.crc = 0x0000 ∧ t.regs.ph = .load ∧
    t.regs.status = 0 ∧ t.regs.perr = false ∧ t.regs.verseen = 0 ∧ t.regs.maxver = 0x81 ∧ t.regs.crcst = 0x0000 ∧
    t.regs.nlen = 0 ∧ (∀ i : NameIdx, t.regs.name[i] = 0) ∧ t.regs.typeTag = 0 ∧ t.regs.dsize = 0 ∧
    t.regs.rsize = 0 ∧ t.regs.clen = 0 ∧ t.regs.shsize = 0 ∧ t.regs.fsize = 0 ∧ t.regs.pres = 0b000 ∧
    t.regs.doff = 0 ∧ t.regs.roff = 0 ∧ t.regs.coff = 0

/-- The two reset sources have identical effect (70_reset_and_hazards.md R220); RST itself leaves the ports alone. The
reset input and the ports are the model's (logs 1, 2, 3). -/
def Obligations.HardwareResetAndRstHaveTheSameEffect : Prop :=
  ∀ (s : State) (rest : List PortInput),
    exec .rst s = .next { s with regs := State.reset.regs } ∧
    step { s with inputs := .hardReset :: rest } =
      .next { regs := State.reset.regs, inputs := rest, response := none } ∧
    step { s with inputs := .command 0x10000000000000000#68 :: rest } =
      .next { regs := State.reset.regs, inputs := rest, response := none }

/-! ## RD -/

/-- RD of every assigned number responds with that register, zero-extended, and changes nothing; RD of every other
number responds 0 and is refused (30_encoding.md R100, 43_control_commands.md R181). The response port is the model's
field (log 3). -/
def Obligations.RdRespondsWithTheNumberedRegister : Prop :=
  ∀ s : State,
    let reads := fun (number : Byte) (v : Rsp) =>
      exec (.rd (decodeReg number)) s = .next { s with response := some v }
    reads 0x00 (s.regs.status.setWidth 64) ∧
    (s.regs.ph = .load → reads 0x01 0) ∧ (s.regs.ph = .hdr → reads 0x01 1) ∧
    (s.regs.ph = .done → reads 0x01 2) ∧ (s.regs.ph = .fail → reads 0x01 3) ∧
    reads 0x02 (s.regs.hcnt.setWidth 64) ∧
    reads 0x03 (if s.regs.perr then 1 else 0) ∧
    reads 0x04 (s.regs.crc.setWidth 64) ∧
    reads 0x05 (s.regs.crcst.setWidth 64) ∧
    reads 0x06 (s.regs.verseen.setWidth 64) ∧
    reads 0x07 (s.regs.maxver.setWidth 64) ∧
    reads 0x08 (s.regs.nlen.setWidth 64) ∧
    reads 0x09 (s.regs.typeTag.setWidth 64) ∧
    reads 0x0A (s.regs.dsize.setWidth 64) ∧
    reads 0x0B (s.regs.rsize.setWidth 64) ∧
    reads 0x0C (s.regs.clen.setWidth 64) ∧
    reads 0x0D (s.regs.shsize.setWidth 64) ∧
    reads 0x0E s.regs.fsize ∧
    reads 0x0F (s.regs.pres.setWidth 64) ∧
    reads 0x10 s.regs.doff ∧
    reads 0x11 s.regs.roff ∧
    reads 0x12 s.regs.coff ∧
    (∀ i : NameIdx, reads (BitVec.ofNat 8 (0x40 + i.val)) (s.regs.name[i].setWidth 64)) ∧
    (∀ i : HAddr, reads (BitVec.ofNat 8 (0x80 + i.val)) ((s.regs.hbuf.read i).setWidth 64)) ∧
    (∀ n : Byte, ((0x13 ≤ n.toNat ∧ n.toNat ≤ 0x3F) ∨ n = 0x7F) →
      exec (.rd (decodeReg n)) s = .next { s with regs := { s.regs with perr := true }, response := some 0 })

/-! ## LDB -/

/-- An accepted LDB stores its byte at index HCNT and nowhere else, folds it into CRC while the index is below 124,
counts it, and changes nothing else (40_checksum_engine.md R129, 20_memory.md R61). -/
def Obligations.LdbStoresAndFoldsTheNextByte : Prop :=
  ∀ (b : Byte) (s : State) (i : HAddr),
    s.regs.ph = .load → s.regs.hcnt.toNat = i.val → s.regs.hbuf.wf = true →
    ∃ m : Memory,
      exec (.ldb b) s = .next { s with regs := { s.regs with
        hbuf := m
        crc := if i.val < 124 then x16Byte s.regs.crc b else s.regs.crc
        hcnt := BitVec.ofNat 8 (i.val + 1) } } ∧
      m.wf = true ∧ m.read i = b ∧ ∀ a : HAddr, a ≠ i → m.read a = s.regs.hbuf.read a

/-- Bytes loaded after RST, whatever the state before it, stand in the buffer in order, and CRC is the checksum of
those with index below 124 (20_memory.md R74, 10_state.md R23). The queue of commands is the model's (log 1), and so is
that the response port is empty after a command other than RD (log 3). -/
def Obligations.LoadedBytesStandInOrderAndAreChecksummed : Prop :=
  ∀ (s : State) (bytes : List Byte) (rest : List PortInput), bytes.length ≤ 128 →
    ∃ t : State,
      Host.Core.run Sys2Proof.core (bytes.length + 1)
        { s with inputs := .command (encode .rst) ::
            (bytes.map (fun b => PortInput.command (encode (.ldb b))) ++ rest) } = .next t ∧
      (∀ (i : HAddr), t.regs.hbuf.read i = bytes.getD i.val 0) ∧
      t.regs.crc = x16 (bytes.take 124) ∧ t.regs.hcnt.toNat = bytes.length ∧
      t.inputs = rest ∧ t.response = none ∧
      t.regs = { State.reset.regs with hbuf := t.regs.hbuf, crc := t.regs.crc, hcnt := t.regs.hcnt }

/-! ## DEC -/

/-- DEC of a loaded header whose checks all pass writes the seven record registers from the bytes of the layout table,
VERSEEN and CRCST, moves to HDR, and changes nothing else (41_header_decoder.md R148, 30_encoding.md R90). -/
def Obligations.DecOfAValidHeaderWritesTheRecord : Prop :=
  ∀ s : State,
    let h := s.regs.hbuf.read
    s.regs.ph = .load → 128 ≤ s.regs.hcnt.toNat → h 0x00 = 0 → 1 ≤ (h 0x01).toNat → (h 0x01).toNat ≤ 63 →
    (h 0x7B).toNat ≤ s.regs.maxver.toNat → s.regs.crc = h 0x7C ++ h 0x7D →
    ∃ name : Vector Byte 63,
      exec .dec s = .next { s with regs := { s.regs with
        verseen := h 0x7B
        crcst := h 0x7C ++ h 0x7D
        nlen := h 0x01
        name := name
        typeTag := h 0x41 ++ h 0x42 ++ h 0x43 ++ h 0x44
        dsize := h 0x53 ++ h 0x54 ++ h 0x55 ++ h 0x56
        rsize := h 0x57 ++ h 0x58 ++ h 0x59 ++ h 0x5A
        clen := h 0x63 ++ h 0x64
        shsize := h 0x78 ++ h 0x79
        ph := .hdr } } ∧
      ∀ i : NameIdx, name[i] = if i.val < (h 0x01).toNat then h ⟨2 + i.val, by omega⟩ else 0

/-- DEC raises the first error that applies, with the exact state after it (60_exceptions.md R194 items 1 to 5, R196,
R197; 41_header_decoder.md R148). -/
def Obligations.DecRaisesTheFirstErrorThatApplies : Prop :=
  ∀ s : State,
    let h := s.regs.hbuf.read
    s.regs.ph = .load →
    (s.regs.hcnt.toNat < 128 →
      exec .dec s = .next { s with regs := { s.regs with status := 3, ph := .fail } }) ∧
    (128 ≤ s.regs.hcnt.toNat → h 0x00 ≠ 0 →
      exec .dec s = .next { s with regs := { s.regs with status := 4, ph := .fail } }) ∧
    (128 ≤ s.regs.hcnt.toNat → h 0x00 = 0 → ((h 0x01).toNat = 0 ∨ 63 < (h 0x01).toNat) →
      exec .dec s = .next { s with regs := { s.regs with status := 4, ph := .fail } }) ∧
    (128 ≤ s.regs.hcnt.toNat → h 0x00 = 0 → 1 ≤ (h 0x01).toNat → (h 0x01).toNat ≤ 63 →
      s.regs.maxver.toNat < (h 0x7B).toNat →
      exec .dec s = .next { s with regs := { s.regs with verseen := h 0x7B, status := 5, ph := .fail } }) ∧
    (128 ≤ s.regs.hcnt.toNat → h 0x00 = 0 → 1 ≤ (h 0x01).toNat → (h 0x01).toNat ≤ 63 →
      (h 0x7B).toNat ≤ s.regs.maxver.toNat → s.regs.crc ≠ h 0x7C ++ h 0x7D →
      exec .dec s = .next { s with regs := { s.regs with
        verseen := h 0x7B, crcst := h 0x7C ++ h 0x7D, status := 6, ph := .fail } })

/-- In every state a pass can hold, DEC of 128 loaded bytes, which compares the running CRC, answers what the function
`decode` answers of the buffer, which computes the checksum over it (60_exceptions.md R206, 41_header_decoder.md R140,
R148). -/
def Obligations.DecAgreesWithTheFunctionDecode : Prop :=
  ∀ s : State, s.regs.Inv → s.regs.ph = .load → s.regs.hcnt = 128 →
    ∃ t : State, exec .dec s = .next t ∧
      match decodeHeader s.regs.hbuf.read with
      | .ok record => t.regs.ph = .hdr ∧ t.regs.status = 0 ∧ t.regs.recordView = record
      | .error e => t.regs.ph = .fail ∧ t.regs.status = config.errCode e.error ∧ e.ShownIn t.regs ∧ t.regs.NoRecord

/-! ## The function decode -/

/-- Round trip (41_header_decoder.md R147): every header that holds given fields decodes to them, and whatever the
unlisted bytes are there is such a header. -/
def Obligations.HeaderThatHoldsFieldsDecodesToThem : Prop :=
  ∀ (name : List Byte) (tag d r : BitVec 32) (c sh : BitVec 16) (v : Byte),
    1 ≤ name.length → name.length ≤ 63 → v.toNat ≤ 0x81 →
    (∀ h : Header, HeaderHolds h name tag d r c sh v →
      decodeHeader h = .ok
        { name := name, typeTag := tag, dataSize := d, resourceSize := r, commentLength := c,
          secondaryHeaderSize := sh }) ∧
    ∀ fill : Header, ∃ h : Header, HeaderHolds h name tag d r c sh v ∧
      ∀ a : HAddr, UnlistedByte name.length a → h a = fill a

/-- Starting from a valid header, any single bit flipped in bytes [0,126) makes `decode` fail, with ChecksumMismatch
unless an earlier step fails first (41_header_decoder.md R149, 90_conflicts.md C2). -/
def Obligations.AnySingleBitFlipOfAValidHeaderIsRejected : Prop :=
  ∀ (h : Header) (record : HeaderRecord), decodeHeader h = .ok record →
    ∀ (a : HAddr) (j : Nat), a.val < 126 → j < 8 →
      let h' : Header := fun x => if x = a then h a ^^^ BitVec.twoPow 8 j else h x
      ∃ e : HeaderFailure, decodeHeader h' = .error e ∧
        (h' 0x00 = 0 → 1 ≤ (h' 0x01).toNat → (h' 0x01).toNat ≤ 63 → (h' 0x7B).toNat ≤ 0x81 →
          e.error = .checksumMismatch)

/-- Bytes 126 and 127 are read by nothing (70_reset_and_hazards.md R228, 41_header_decoder.md R146). -/
def Obligations.LastTwoHeaderBytesDoNotMatter : Prop :=
  ∀ h h' : Header, (∀ a : HAddr, a.val < 126 → h a = h' a) → decodeHeader h = decodeHeader h'

/-- Byte order (20_memory.md R63): the field value is the big-endian sum, and each multi-byte field is assembled from
the bytes of the layout table (30_encoding.md R90, R93). -/
def Obligations.HeaderFieldsAreBigEndian : Prop :=
  (∀ (h : Header) (a : Nat) (ha : a + 2 ≤ 128),
    (be2 h a ha).toNat = (h ⟨a, by omega⟩).toNat * 2 ^ 8 + (h ⟨a + 1, by omega⟩).toNat) ∧
  (∀ (h : Header) (a : Nat) (ha : a + 4 ≤ 128),
    (be4 h a ha).toNat = (h ⟨a, by omega⟩).toNat * 2 ^ 24 + (h ⟨a + 1, by omega⟩).toNat * 2 ^ 16 +
      (h ⟨a + 2, by omega⟩).toNat * 2 ^ 8 + (h ⟨a + 3, by omega⟩).toNat) ∧
  ∀ h : Header, fieldType h = be4 h 0x41 ∧ fieldDsize h = be4 h 0x53 ∧ fieldRsize h = be4 h 0x57 ∧
    fieldClen h = be2 h 0x63 ∧ fieldShsize h = be2 h 0x78 ∧ fieldCrc h = be2 h 0x7C

/-! ## The checksum engine -/

/-- Bit reversal moves bit i to bit W-1-i, for every width, and is its own inverse (40_checksum_engine.md R121). -/
def Obligations.BitReversalReversesBitsOfAnyWidth : Prop :=
  ∀ (w : Nat) (x : BitVec w),
    (∀ i : Nat, i < w → (bitrev x).getLsbD i = x.getLsbD (w - 1 - i)) ∧ bitrev (bitrev x) = x

/-- Byte swap moves byte j to byte m-1-j, bits inside a byte keeping their order, and is its own inverse
(40_checksum_engine.md R122). -/
def Obligations.ByteSwapReversesBytes : Prop :=
  ∀ (m : Nat) (x : BitVec (8 * m)),
    (∀ j k : Nat, j < m → k < 8 → (byteswap x).getLsbD (8 * j + k) = x.getLsbD (8 * (m - 1 - j) + k)) ∧
    byteswap (byteswap x) = x

/-- The block's instance, by the arithmetic of 40_checksum_engine.md R126: eight rounds on natural numbers modulo 65536
per byte, folded from 0; and it is `compute` of the instance's parameters. -/
def Obligations.InstanceIsTheBitSerialFold : Prop :=
  let round := fun r : Nat => if r / 32768 % 2 = 1 then (r * 2 % 65536) ^^^ 0x1021 else r * 2 % 65536
  (∀ (reg : CrcWord) (b : Byte), (x16Byte reg b).toNat =
    round (round (round (round (round (round (round (round (reg.toNat ^^^ (b.toNat * 256)))))))))) ∧
  ∀ data : List Byte, x16 data = data.foldl x16Byte 0x0000 ∧
    compute data { polynomial := 0x1021, initial := 0x0000, finalXor := 0x0000, reflectInput := false,
                   reflectOutput := false, byteSwapOutput := false } = some (x16 data)

/-- Single-bit sensitivity of the generic engine: for every parameter set with a non-zero polynomial, flipping one bit
of the data changes the result; with polynomial 0 the result is the same for all data of the same length
(40_checksum_engine.md R127, item 2). -/
def Obligations.ChecksumChangesWithEverySingleBitFlip : Prop :=
  ∀ (w : Nat) (p : ChecksumParameters w), 8 ≤ w → w % 8 = 0 →
    (p.polynomial ≠ 0 → ∀ (data : List Byte) (i j : Nat) (hi : i < data.length), j < 8 →
      compute (data.set i (data[i] ^^^ BitVec.twoPow 8 j)) p ≠ compute data p) ∧
    (p.polynomial = 0 → ∀ data data' : List Byte, data.length = data'.length → compute data p = compute data' p)

/-- Linearity of X16 over XOR for byte sequences of equal length (40_checksum_engine.md R127, item 4). -/
def Obligations.InstanceIsLinearOverXor : Prop :=
  ∀ a b : List Byte, a.length = b.length → x16 (List.zipWith (· ^^^ ·) a b) = x16 a ^^^ x16 b

/-- The checksum of zeros is zero, and leading zero bytes do not affect it (70_reset_and_hazards.md R227); the register
after two sequences is that after the second started from that after the first (40_checksum_engine.md R125). -/
def Obligations.LeadingZeroBytesLeaveTheChecksumAlone : Prop :=
  (∀ n : Nat, x16 (List.replicate n 0) = 0) ∧
  (∀ (n : Nat) (data : List Byte), x16 (List.replicate n 0 ++ data) = x16 data) ∧
  ∀ data data' : List Byte, x16 (data ++ data') = data'.foldl x16Byte (x16 data)

/-! ## The segment locator -/

/-- Padding (42_segment_locator.md R160): the closed form, at most 127 bytes, and `s + pad(s)` is the smallest multiple
of 128 that is at least `s`. It holds for PAD_WHEN_ALIGNED = 0 only (log 6). -/
def Obligations.PadReachesTheNextMultipleOf128 : Prop :=
  ∀ s : Nat, pad s = (128 - s % 128) % 128 ∧ pad s ≤ 127 ∧ 128 ∣ s + pad s ∧
    ∀ m : Nat, 128 ∣ m → s ≤ m → s + pad s ≤ m

/-- No overflow (42_segment_locator.md R165): with the field widths, the bases and the largest sum stay within the
stated values, which are reached, and below 2^34; so 64-bit registers hold them exactly. -/
def Obligations.BasesAndEndsNeverOverflow : Prop :=
  (∀ (sh c : BitVec 16) (d r : BitVec 32),
    dataBase sh.toNat ≤ 65664 ∧ resBase sh.toNat d.toNat ≤ 4295032960 ∧
    commentBase sh.toNat d.toNat r.toNat ≤ 8590000256 ∧
    commentBase sh.toNat d.toNat r.toNat + c.toNat ≤ 8590065791 ∧
    dataBase sh.toNat + d.toNat < 2 ^ 34 ∧ resBase sh.toNat d.toNat + r.toNat < 2 ^ 34 ∧
    (BitVec.ofNat 64 (dataBase sh.toNat)).toNat = dataBase sh.toNat ∧
    (BitVec.ofNat 64 (resBase sh.toNat d.toNat)).toNat = resBase sh.toNat d.toNat ∧
    (BitVec.ofNat 64 (commentBase sh.toNat d.toNat r.toNat)).toNat = commentBase sh.toNat d.toNat r.toNat) ∧
  dataBase 65535 = 65664 ∧ resBase 65535 4294967295 = 4295032960 ∧
  commentBase 65535 4294967295 4294967295 = 8590000256 ∧ 8590065791 < 2 ^ 34

/-- LOC when every present segment lies in the file: the file size, the three bases, the flags of the present segments,
phase DONE, and nothing else (42_segment_locator.md R168, R161, R162). -/
def Obligations.LocOfFittingSegmentsWritesTheLayout : Prop :=
  ∀ (n : Offset) (s : State),
    let sh := s.regs.shsize.toNat
    let d := s.regs.dsize.toNat
    let r := s.regs.rsize.toNat
    let c := s.regs.clen.toNat
    let dBase := 128 + sh + pad sh
    let rBase := dBase + d + pad d
    let cBase := rBase + r + pad r
    s.regs.ph = .hdr → (0 < d → dBase + d ≤ n.toNat) → (0 < r → rBase + r ≤ n.toNat) →
    (0 < c → cBase + c ≤ n.toNat) →
    exec (.loc n) s = .next { s with regs := { s.regs with
      fsize := n
      doff := BitVec.ofNat 64 dBase
      roff := BitVec.ofNat 64 rBase
      coff := BitVec.ofNat 64 cBase
      pres := s.regs.pres ||| (if 0 < d then 0b001 else 0) ||| (if 0 < r then 0b010 else 0) |||
        (if 0 < c then 0b100 else 0)
      ph := .done } }

/-- LOC raises TooSmall at the first present segment that does not fit, keeping the part of the layout it reached
(42_segment_locator.md R168, 60_exceptions.md R194 items 6 to 8, R197). That the record stays is read against R40 of
10_state.md (log 22). -/
def Obligations.LocRaisesTooSmallAtTheFirstSegmentThatDoesNotFit : Prop :=
  ∀ (n : Offset) (s : State),
    let sh := s.regs.shsize.toNat
    let d := s.regs.dsize.toNat
    let r := s.regs.rsize.toNat
    let c := s.regs.clen.toNat
    let dBase := 128 + sh + pad sh
    let rBase := dBase + d + pad d
    let cBase := rBase + r + pad r
    let dFlag : BitVec 3 := if 0 < d then 0b001 else 0
    let rFlag : BitVec 3 := if 0 < r then 0b010 else 0
    s.regs.ph = .hdr →
    (0 < d → n.toNat < dBase + d →
      exec (.loc n) s = .next { s with regs := { s.regs with
        fsize := n, doff := BitVec.ofNat 64 dBase, status := 3, ph := .fail } }) ∧
    ((0 < d → dBase + d ≤ n.toNat) → 0 < r → n.toNat < rBase + r →
      exec (.loc n) s = .next { s with regs := { s.regs with
        fsize := n, doff := BitVec.ofNat 64 dBase, pres := s.regs.pres ||| dFlag,
        roff := BitVec.ofNat 64 rBase, status := 3, ph := .fail } }) ∧
    ((0 < d → dBase + d ≤ n.toNat) → (0 < r → rBase + r ≤ n.toNat) → 0 < c → n.toNat < cBase + c →
      exec (.loc n) s = .next { s with regs := { s.regs with
        fsize := n, doff := BitVec.ofNat 64 dBase, pres := s.regs.pres ||| dFlag ||| rFlag,
        roff := BitVec.ofNat 64 rBase, coff := BitVec.ofNat 64 cBase, status := 3, ph := .fail } })

/-- In every state a pass can hold, LOC answers what the function `locate` answers of the record's lengths and the file
size (60_exceptions.md R206, 42_segment_locator.md R163, R168). -/
def Obligations.LocAgreesWithTheFunctionLocate : Prop :=
  ∀ (n : Offset) (s : State), s.regs.Inv → s.regs.ph = .hdr →
    ∃ t : State, exec (.loc n) s = .next t ∧ t.regs.fsize = n ∧
      match locate s.regs.shsize.toNat s.regs.dsize.toNat s.regs.rsize.toNat s.regs.clen.toNat n.toNat with
      | .ok l => t.regs.ph = .done ∧ t.regs.status = 0 ∧ t.regs.layoutView = l
      | .error l => t.regs.ph = .fail ∧ t.regs.status = 3 ∧ l.dataBase = t.regs.doff.toNat ∧
          l.resBase.getD 0 = t.regs.roff.toNat ∧ l.commentBase.getD 0 = t.regs.coff.toNat ∧
          l.present = t.regs.pres

/-- After a successful pass every base is a multiple of 128, a segment is present exactly when its length is not 0, and
the range of a present segment lies in the file (10_state.md R41, 42_segment_locator.md R167, R169). -/
def Obligations.LocatedSegmentsAreAlignedAndInsideTheFile : Prop :=
  ∀ r : Regs, r.Sound → r.ph = .done →
    128 ∣ r.doff.toNat ∧ 128 ∣ r.roff.toNat ∧ 128 ∣ r.coff.toNat ∧
    (r.pres.getLsbD 0 = true ↔ 0 < r.dsize.toNat) ∧ (r.pres.getLsbD 1 = true ↔ 0 < r.rsize.toNat) ∧
    (r.pres.getLsbD 2 = true ↔ 0 < r.clen.toNat) ∧
    (r.pres.getLsbD 0 = true → r.doff.toNat + r.dsize.toNat ≤ r.fsize.toNat) ∧
    (r.pres.getLsbD 1 = true → r.roff.toNat + r.rsize.toNat ≤ r.fsize.toNat) ∧
    (r.pres.getLsbD 2 = true → r.coff.toNat + r.clen.toNat ≤ r.fsize.toNat)

/-! ## The phase machine and whole-machine rules -/

/-- The phase machine (43_control_commands.md R183): which commands are accepted in which phase, where each leads, and
what STATUS then holds.
A refused command leaves everything but PERR, and for RD the response. HCNT above 128 occurs in no run (log 8). -/
def Obligations.PhaseMovesOnlyAsTheTableSays : Prop :=
  ∀ s : State,
    let refused : State := { s with regs := { s.regs with perr := true } }
    (∃ t, exec .rst s = .next t ∧ t.regs.ph = .load ∧ t.regs.status = 0) ∧
    (∀ b, (s.regs.ph = .load ∧ s.regs.hcnt.toNat < 128 →
        ∃ t, exec (.ldb b) s = .next t ∧ t.regs.ph = .load ∧ t.regs.status = s.regs.status ∧
          t.regs.perr = s.regs.perr) ∧
      (s.regs.ph ≠ .load ∨ 128 ≤ s.regs.hcnt.toNat → exec (.ldb b) s = .next refused)) ∧
    (s.regs.ph = .load → ∃ t, exec .dec s = .next t ∧ t.regs.perr = s.regs.perr ∧
      ((t.regs.ph = .hdr ∧ t.regs.status = s.regs.status) ∨
       (t.regs.ph = .fail ∧ (t.regs.status = 3 ∨ t.regs.status = 4 ∨ t.regs.status = 5 ∨ t.regs.status = 6)))) ∧
    (s.regs.ph ≠ .load → exec .dec s = .next refused) ∧
    (∀ n, (s.regs.ph = .hdr → ∃ t, exec (.loc n) s = .next t ∧ t.regs.perr = s.regs.perr ∧
        ((t.regs.ph = .done ∧ t.regs.status = s.regs.status) ∨ (t.regs.ph = .fail ∧ t.regs.status = 3))) ∧
      (s.regs.ph ≠ .hdr → exec (.loc n) s = .next refused)) ∧
    (∀ r, ∃ t, exec (.rd r) s = .next t ∧ t.regs.ph = s.regs.ph ∧
      (t.regs = s.regs ∨ t.regs = refused.regs))

/-- One error per pass (60_exceptions.md R195, R193; 10_state.md R25): between resets STATUS changes only together with
a move to FAIL, to one of the codes 3 to 6, and in FAIL neither changes. -/
def Obligations.StatusIsWrittenOncePerPass : Prop :=
  ∀ (s t : State) (i : PortInput) (rest : List PortInput),
    s.inputs = i :: rest → ¬ i.Resets → step s = .next t →
      (s.regs.ph = .fail → t.regs.ph = .fail ∧ t.regs.status = s.regs.status) ∧
      (t.regs.status ≠ s.regs.status → s.regs.ph ≠ .fail ∧ t.regs.ph = .fail ∧
        (t.regs.status = 3 ∨ t.regs.status = 4 ∨ t.regs.status = 5 ∨ t.regs.status = 6)) ∧
      (s.regs.ph = .done → t.regs.ph = .done) ∧ t.regs.maxver = s.regs.maxver

/-- The header cannot change under a decoded record (20_memory.md R76, R61; 10_state.md R21): once phase LOAD is left,
only a reset changes the buffer, the count, the checksum or the record; and a byte of the buffer changes only by an
LDB at its own index. -/
def Obligations.HeaderAndRecordAreFrozenAfterLoading : Prop :=
  ∀ (s t : State) (i : PortInput) (rest : List PortInput),
    s.inputs = i :: rest → ¬ i.Resets → step s = .next t →
      (s.regs.ph ≠ .load → t.regs.hbuf = s.regs.hbuf ∧ t.regs.hcnt = s.regs.hcnt ∧ t.regs.crc = s.regs.crc ∧
        t.regs.verseen = s.regs.verseen ∧ t.regs.crcst = s.regs.crcst ∧ t.regs.nlen = s.regs.nlen ∧
        t.regs.name = s.regs.name ∧ t.regs.typeTag = s.regs.typeTag ∧ t.regs.dsize = s.regs.dsize ∧
        t.regs.rsize = s.regs.rsize ∧ t.regs.clen = s.regs.clen ∧ t.regs.shsize = s.regs.shsize) ∧
      ∀ a : HAddr, t.regs.hbuf.read a ≠ s.regs.hbuf.read a →
        s.regs.ph = .load ∧ s.regs.hcnt.toNat = a.val ∧ ∃ b, i = .command (encode (.ldb b))

/-- A refusal does no harm to the pass (60_exceptions.md R201): whatever PERR holds, every command does the same to every
other register and, but for RD of PERR itself, gives the same response. -/
def Obligations.PerrInfluencesNothingElse : Prop :=
  ∀ (i : Instr) (s : State) (p : Bool),
    ∃ t t' : State, exec i s = .next t ∧ exec i { s with regs := { s.regs with perr := p } } = .next t' ∧
      { t'.regs with perr := t.regs.perr } = t.regs ∧ t'.inputs = t.inputs ∧
      (i ≠ .rd .perr → t'.response = t.response)

/-! ## Invariants -/

/-- The reset state is sound: canonical memory, the invariants of 10_state.md R46, and truth about the header. On the
record after a failed LOC the invariants follow R46 against R40 (log 22). -/
def Obligations.ResetStateIsSound : Prop :=
  State.reset.regs.Sound

/-- Every step keeps the canonical form of the header buffer, from every state. The form is the model's (log 12). -/
def Obligations.StepKeepsTheBufferCanonical : Prop :=
  ∀ s t : State, s.regs.hbuf.wf = true → step s = .next t → t.regs.hbuf.wf = true

/-- Every step keeps the invariants of 10_state.md R46, from every state that has them and a canonical buffer. On the
record after a failed LOC they follow R46 against R40 (log 22). -/
def Obligations.StepKeepsTheInvariants : Prop :=
  ∀ s t : State, s.regs.hbuf.wf = true → s.regs.Inv → step s = .next t → t.regs.Inv

/-- Every step keeps what the registers owe the host (60_exceptions.md R206): the record is `decode(HBUF)`, the layout
is `locate` of it, a failure is theirs. On the record after a failed LOC it follows R46 against R40 (log 22). -/
def Obligations.StepKeepsTheRegistersTrueToTheHeader : Prop :=
  ∀ s t : State, s.regs.Sound → step s = .next t → t.regs.Sound

/-- The invariants of every reachable state (10_state.md R46). That the host acts by putting inputs in a queue is the
model's (logs 1, 2); on the record after a failed LOC the invariants follow R46 against R40 (log 22). -/
def Obligations.ReachableStatesHaveTheInvariants : Prop :=
  ∀ s : State, Reachable s → s.regs.Inv

/-- A whole pass over one container (70_reset_and_hazards.md R222, 60_exceptions.md R199, R206): from any state, RST, the
128 bytes of any header, DEC and LOC of any size end as `decode` of the header and `locate` of its lengths say, with
what a failure reports and the part of the layout it reached, so the outcome depends on nothing else. The queue of
commands is the model's (log 1); that a failed LOC keeps the record follows R46 against R40 of 10_state.md (log 22). -/
def Obligations.PassEndsAsDecodeAndLocateSay : Prop :=
  ∀ (s : State) (h : Header) (n : Offset) (rest : List PortInput),
    ∃ t : State,
      Host.Core.run Sys2Proof.core 131
        { s with inputs := .command (encode .rst) ::
            ((headerBytes h).map (fun b => PortInput.command (encode (.ldb b))) ++
              .command (encode .dec) :: .command (encode (.loc n)) :: rest) } = .next t ∧
      t.inputs = rest ∧ (∀ a : HAddr, t.regs.hbuf.read a = h a) ∧ t.regs.hcnt = 128 ∧
      match decodeHeader h with
      | .error e => t.regs.ph = .fail ∧ t.regs.status = config.errCode e.error ∧ e.ShownIn t.regs ∧
          t.regs.perr = true ∧ t.regs.NoRecord ∧ t.regs.NoLayout
      | .ok record => t.regs.recordView = record ∧ t.regs.perr = false ∧ t.regs.fsize = n ∧
          match locate record.secondaryHeaderSize.toNat record.dataSize.toNat record.resourceSize.toNat
            record.commentLength.toNat n.toNat with
          | .ok l => t.regs.ph = .done ∧ t.regs.status = 0 ∧ t.regs.layoutView = l
          | .error l => t.regs.ph = .fail ∧ t.regs.status = 3 ∧ l.dataBase = t.regs.doff.toNat ∧
              l.resBase.getD 0 = t.regs.roff.toNat ∧ l.commentBase.getD 0 = t.regs.coff.toNat ∧
              l.present = t.regs.pres
end

