-- ==== Sys2Proof/Laws/Memory.lean ====
section
/-! SUPPORT. Laws of the header space: read after write, what a write leaves alone, and that the canonical form is kept
and determines the memory. -/

namespace Sys2Proof.Laws

open Sys2Proof.Machine

@[simp] theorem unlisted_eq : Memory.unlisted = 0#8 := rfl

@[simp] theorem read_empty (a : HAddr) : Memory.read [] a = 0#8 := rfl

@[simp] theorem wf_empty : Memory.wf [] = true := rfl

theorem wfFrom_cons {lo k : Nat} {x : Byte} {rest : Memory} :
    Memory.wfFrom lo ((k, x) :: rest) = true ↔
      lo ≤ k ∧ k < 128 ∧ x ≠ 0#8 ∧ Memory.wfFrom (k + 1) rest = true := by
  simp [Memory.wfFrom, and_assoc]

theorem wfFrom_mono {lo lo' : Nat} (h : lo' ≤ lo) {m : Memory} (hm : Memory.wfFrom lo m = true) :
    Memory.wfFrom lo' m = true := by
  cases m with
  | nil => rfl
  | cons c rest =>
    obtain ⟨k, x⟩ := c
    rw [wfFrom_cons] at hm ⊢
    exact ⟨h.trans hm.1, hm.2⟩

theorem lookup_cell_append (a : Nat) (v : Byte) (m : Memory) (a' : Nat) :
    Memory.lookup (Memory.cell a v ++ m) a' =
      if v ≠ 0#8 ∧ a' = a then v else Memory.lookup m a' := by
  by_cases hv : v = 0#8 <;> by_cases ha : a' = a <;> simp [Memory.cell, Memory.lookup, hv, ha]

/-- Below the first index of a canonical memory every byte is the unlisted one. -/
theorem lookup_below {lo a : Nat} (h : a < lo) {m : Memory} (hm : Memory.wfFrom lo m = true) :
    Memory.lookup m a = 0#8 := by
  induction m generalizing lo with
  | nil => rfl
  | cons c rest ih =>
    obtain ⟨k, x⟩ := c
    rw [wfFrom_cons] at hm
    have hk : a ≠ k := by omega
    simp [Memory.lookup, hk, ih (lo := k + 1) (by omega) hm.2.2.2]

theorem lookup_store_other {a a' : Nat} (h : a' ≠ a) (m : Memory) (v : Byte) :
    Memory.lookup (Memory.store m a v) a' = Memory.lookup m a' := by
  induction m with
  | nil => simpa [Memory.store, h] using lookup_cell_append a v [] a'
  | cons c rest ih =>
    obtain ⟨k, x⟩ := c
    unfold Memory.store
    split_ifs with h1 h2
    · simp [lookup_cell_append, h]
    · have hk : a' ≠ k := h2 ▸ h
      simp [lookup_cell_append, h, Memory.lookup, hk]
    · simp [Memory.lookup, ih]

theorem lookup_store_same {lo a : Nat} {m : Memory} (hm : Memory.wfFrom lo m = true) (v : Byte) :
    Memory.lookup (Memory.store m a v) a = v := by
  induction m generalizing lo with
  | nil =>
    by_cases hv : v = 0#8 <;> simp [Memory.store, Memory.cell, Memory.lookup, hv]
  | cons c rest ih =>
    obtain ⟨k, x⟩ := c
    rw [wfFrom_cons] at hm
    unfold Memory.store
    split_ifs with h1 h2
    · have hak : a ≠ k := by omega
      have hr := lookup_below (a := a) (lo := k + 1) (by omega) hm.2.2.2
      by_cases hv : v = 0#8 <;> simp [lookup_cell_append, Memory.lookup, hak, hr, hv]
    · have hr := lookup_below (a := a) (lo := k + 1) (by omega) hm.2.2.2
      by_cases hv : v = 0#8 <;> simp [lookup_cell_append, hr, hv]
    · simpa [Memory.lookup, h2] using ih hm.2.2.2

theorem wfFrom_cell_append {lo a : Nat} (v : Byte) (ha : lo ≤ a) (hb : a < 128) {m : Memory}
    (hm : Memory.wfFrom (a + 1) m = true) : Memory.wfFrom lo (Memory.cell a v ++ m) = true := by
  by_cases hv : v = 0#8
  · simpa [Memory.cell, hv] using wfFrom_mono (by omega) hm
  · simpa [Memory.cell, hv, wfFrom_cons] using ⟨ha, hb, hm⟩

theorem wfFrom_store {lo a : Nat} (ha : lo ≤ a) (hb : a < 128) {m : Memory}
    (hm : Memory.wfFrom lo m = true) (v : Byte) : Memory.wfFrom lo (Memory.store m a v) = true := by
  induction m generalizing lo with
  | nil => simpa [Memory.store] using wfFrom_cell_append (m := []) v ha hb rfl
  | cons c rest ih =>
    obtain ⟨k, x⟩ := c
    have hm' := wfFrom_cons.mp hm
    unfold Memory.store
    split_ifs with h1 h2
    · exact wfFrom_cell_append v ha hb (wfFrom_cons.mpr ⟨by omega, hm'.2⟩)
    · exact wfFrom_cell_append v ha hb (h2 ▸ hm'.2.2.2)
    · exact wfFrom_cons.mpr ⟨hm'.1, hm'.2.1, hm'.2.2.1, ih (by omega) hm'.2.2.2⟩

/-- A write leaves every other index alone. -/
theorem read_write_other (m : Memory) {a a' : HAddr} (h : a' ≠ a) (v : Byte) :
    (m.write a v).read a' = m.read a' :=
  lookup_store_other (fun e => h (Fin.ext e)) m v

/-- A read after a write to the same index gives the byte written. -/
theorem read_write_same {m : Memory} (hm : m.wf = true) (a : HAddr) (v : Byte) :
    (m.write a v).read a = v :=
  lookup_store_same hm v

theorem read_write {m : Memory} (hm : m.wf = true) (a a' : HAddr) (v : Byte) :
    (m.write a v).read a' = if a' = a then v else m.read a' := by
  by_cases h : a' = a
  · simp [h, read_write_same hm]
  · simp [h, read_write_other m h]

/-- Every memory operation keeps the canonical form: `write` is the only one that makes a memory. -/
theorem wf_write {m : Memory} (hm : m.wf = true) (a : HAddr) (v : Byte) : (m.write a v).wf = true :=
  wfFrom_store (Nat.zero_le _) a.isLt hm v

theorem wfFrom_ext {lo : Nat} {m m' : Memory} (hm : Memory.wfFrom lo m = true)
    (hm' : Memory.wfFrom lo m' = true) (h : ∀ a, a < 128 → Memory.lookup m a = Memory.lookup m' a) :
    m = m' := by
  induction m generalizing lo m' with
  | nil =>
    cases m' with
    | nil => rfl
    | cons c' rest' =>
      obtain ⟨k', x'⟩ := c'
      rw [wfFrom_cons] at hm'
      have := h k' hm'.2.1
      simp [Memory.lookup] at this
      exact absurd this.symm hm'.2.2.1
  | cons c rest ih =>
    obtain ⟨k, x⟩ := c
    have hk := wfFrom_cons.mp hm
    cases m' with
    | nil =>
      have := h k hk.2.1
      simp [Memory.lookup] at this
      exact absurd this hk.2.2.1
    | cons c' rest' =>
      obtain ⟨k', x'⟩ := c'
      have hk' := wfFrom_cons.mp hm'
      have h1 := h k hk.2.1
      have h2 := h k' hk'.2.1
      have b1 : k < k' → Memory.lookup rest' k = 0#8 :=
        fun hlt => lookup_below (lo := k' + 1) (by omega) hk'.2.2.2
      have b2 : k' < k → Memory.lookup rest k' = 0#8 :=
        fun hlt => lookup_below (lo := k + 1) (by omega) hk.2.2.2
      have hkk : k = k' := by
        rcases Nat.lt_trichotomy k k' with hlt | heq | hgt
        · simp [Memory.lookup, Nat.ne_of_lt hlt, b1 hlt] at h1
          exact absurd h1 hk.2.2.1
        · exact heq
        · simp [Memory.lookup, Nat.ne_of_lt hgt, b2 hgt] at h2
          exact absurd h2.symm hk'.2.2.1
      subst hkk
      have hx : x = x' := by simpa [Memory.lookup] using h1
      subst hx
      congr 1
      refine ih hk.2.2.2 hk'.2.2.2 fun a ha => ?_
      by_cases hak : a = k
      · subst hak
        rw [lookup_below (lo := a + 1) (by omega) hk.2.2.2, lookup_below (lo := a + 1) (by omega) hk'.2.2.2]
      · simpa [Memory.lookup, hak] using h a ha

/-- Two canonical memories that read the same everywhere are the same data. -/
theorem wf_ext {m m' : Memory} (hm : m.wf = true) (hm' : m'.wf = true)
    (h : ∀ a : HAddr, m.read a = m'.read a) : m = m' :=
  wfFrom_ext hm hm' fun a ha => h ⟨a, ha⟩

end Sys2Proof.Laws
end

