-- ==== Sys2Proof/Laws/State.lean ====
section
/-! SUPPORT. One lemma per field per update: what each named update of the state does to each field. -/

namespace Sys2Proof.Laws

open Sys2Proof.Machine

section setRegs

variable (s : State) (r : Regs)

@[simp] theorem setRegs_regs : (s.setRegs r).regs = r := rfl
@[simp] theorem setRegs_inputs : (s.setRegs r).inputs = s.inputs := rfl
@[simp] theorem setRegs_response : (s.setRegs r).response = s.response := rfl

end setRegs

section respond

variable (s : State) (v : Rsp)

@[simp] theorem respond_regs : (s.respond v).regs = s.regs := rfl
@[simp] theorem respond_inputs : (s.respond v).inputs = s.inputs := rfl
@[simp] theorem respond_response : (s.respond v).response = some v := rfl

end respond

section take

variable (s : State) (rest : List PortInput)

@[simp] theorem take_regs : (s.take rest).regs = s.regs := rfl
@[simp] theorem take_inputs : (s.take rest).inputs = rest := rfl
@[simp] theorem take_response : (s.take rest).response = none := rfl

end take

section issue

variable (s : State) (w : CmdWord)

@[simp] theorem issue_regs : (s.issue w).regs = s.regs := rfl
@[simp] theorem issue_inputs : (s.issue w).inputs = .command w :: s.inputs := rfl
@[simp] theorem issue_response : (s.issue w).response = s.response := rfl

end issue

section refuse

variable (s : State)

@[simp] theorem refuse_regs : (s.refuse).regs = s.regs.refuse := rfl
@[simp] theorem refuse_inputs : (s.refuse).inputs = s.inputs := rfl
@[simp] theorem refuse_response : (s.refuse).response = s.response := rfl

end refuse

section hardReset

variable (s : State)

@[simp] theorem hardReset_regs : (s.hardReset).regs = Regs.reset := rfl
@[simp] theorem hardReset_inputs : (s.hardReset).inputs = s.inputs := rfl
@[simp] theorem hardReset_response : (s.hardReset).response = s.response := rfl

end hardReset

section raise

variable (r : Regs) (e : TaxonomyError)

@[simp] theorem raise_hbuf : (r.raise e).hbuf = r.hbuf := rfl
@[simp] theorem raise_hcnt : (r.raise e).hcnt = r.hcnt := rfl
@[simp] theorem raise_crc : (r.raise e).crc = r.crc := rfl
@[simp] theorem raise_ph : (r.raise e).ph = .fail := rfl
@[simp] theorem raise_status : (r.raise e).status = config.errCode e := rfl
@[simp] theorem raise_perr : (r.raise e).perr = r.perr := rfl
@[simp] theorem raise_verseen : (r.raise e).verseen = r.verseen := rfl
@[simp] theorem raise_maxver : (r.raise e).maxver = r.maxver := rfl
@[simp] theorem raise_crcst : (r.raise e).crcst = r.crcst := rfl
@[simp] theorem raise_nlen : (r.raise e).nlen = r.nlen := rfl
@[simp] theorem raise_name : (r.raise e).name = r.name := rfl
@[simp] theorem raise_typeTag : (r.raise e).typeTag = r.typeTag := rfl
@[simp] theorem raise_dsize : (r.raise e).dsize = r.dsize := rfl
@[simp] theorem raise_rsize : (r.raise e).rsize = r.rsize := rfl
@[simp] theorem raise_clen : (r.raise e).clen = r.clen := rfl
@[simp] theorem raise_shsize : (r.raise e).shsize = r.shsize := rfl
@[simp] theorem raise_fsize : (r.raise e).fsize = r.fsize := rfl
@[simp] theorem raise_pres : (r.raise e).pres = r.pres := rfl
@[simp] theorem raise_doff : (r.raise e).doff = r.doff := rfl
@[simp] theorem raise_roff : (r.raise e).roff = r.roff := rfl
@[simp] theorem raise_coff : (r.raise e).coff = r.coff := rfl

end raise

section refuseRegs

variable (r : Regs)

@[simp] theorem refuseRegs_hbuf : (r.refuse).hbuf = r.hbuf := rfl
@[simp] theorem refuseRegs_hcnt : (r.refuse).hcnt = r.hcnt := rfl
@[simp] theorem refuseRegs_crc : (r.refuse).crc = r.crc := rfl
@[simp] theorem refuseRegs_ph : (r.refuse).ph = r.ph := rfl
@[simp] theorem refuseRegs_status : (r.refuse).status = r.status := rfl
@[simp] theorem refuseRegs_perr : (r.refuse).perr = true := rfl
@[simp] theorem refuseRegs_verseen : (r.refuse).verseen = r.verseen := rfl
@[simp] theorem refuseRegs_maxver : (r.refuse).maxver = r.maxver := rfl
@[simp] theorem refuseRegs_crcst : (r.refuse).crcst = r.crcst := rfl
@[simp] theorem refuseRegs_nlen : (r.refuse).nlen = r.nlen := rfl
@[simp] theorem refuseRegs_name : (r.refuse).name = r.name := rfl
@[simp] theorem refuseRegs_typeTag : (r.refuse).typeTag = r.typeTag := rfl
@[simp] theorem refuseRegs_dsize : (r.refuse).dsize = r.dsize := rfl
@[simp] theorem refuseRegs_rsize : (r.refuse).rsize = r.rsize := rfl
@[simp] theorem refuseRegs_clen : (r.refuse).clen = r.clen := rfl
@[simp] theorem refuseRegs_shsize : (r.refuse).shsize = r.shsize := rfl
@[simp] theorem refuseRegs_fsize : (r.refuse).fsize = r.fsize := rfl
@[simp] theorem refuseRegs_pres : (r.refuse).pres = r.pres := rfl
@[simp] theorem refuseRegs_doff : (r.refuse).doff = r.doff := rfl
@[simp] theorem refuseRegs_roff : (r.refuse).roff = r.roff := rfl
@[simp] theorem refuseRegs_coff : (r.refuse).coff = r.coff := rfl

end refuseRegs

section loadByte

variable (r : Regs) (i : HAddr) (b : Byte)

@[simp] theorem loadByte_hbuf : (r.loadByte i b).hbuf = r.hbuf.write i b := rfl
@[simp] theorem loadByte_hcnt : (r.loadByte i b).hcnt = r.hcnt + 1 := rfl
@[simp] theorem loadByte_crc : (r.loadByte i b).crc = if i.val < 124 then x16Byte r.crc b else r.crc := rfl
@[simp] theorem loadByte_ph : (r.loadByte i b).ph = r.ph := rfl
@[simp] theorem loadByte_status : (r.loadByte i b).status = r.status := rfl
@[simp] theorem loadByte_perr : (r.loadByte i b).perr = r.perr := rfl
@[simp] theorem loadByte_verseen : (r.loadByte i b).verseen = r.verseen := rfl
@[simp] theorem loadByte_maxver : (r.loadByte i b).maxver = r.maxver := rfl
@[simp] theorem loadByte_crcst : (r.loadByte i b).crcst = r.crcst := rfl
@[simp] theorem loadByte_nlen : (r.loadByte i b).nlen = r.nlen := rfl
@[simp] theorem loadByte_name : (r.loadByte i b).name = r.name := rfl
@[simp] theorem loadByte_typeTag : (r.loadByte i b).typeTag = r.typeTag := rfl
@[simp] theorem loadByte_dsize : (r.loadByte i b).dsize = r.dsize := rfl
@[simp] theorem loadByte_rsize : (r.loadByte i b).rsize = r.rsize := rfl
@[simp] theorem loadByte_clen : (r.loadByte i b).clen = r.clen := rfl
@[simp] theorem loadByte_shsize : (r.loadByte i b).shsize = r.shsize := rfl
@[simp] theorem loadByte_fsize : (r.loadByte i b).fsize = r.fsize := rfl
@[simp] theorem loadByte_pres : (r.loadByte i b).pres = r.pres := rfl
@[simp] theorem loadByte_doff : (r.loadByte i b).doff = r.doff := rfl
@[simp] theorem loadByte_roff : (r.loadByte i b).roff = r.roff := rfl
@[simp] theorem loadByte_coff : (r.loadByte i b).coff = r.coff := rfl

end loadByte

section setRecord

variable (r : Regs) (h : Header)

@[simp] theorem setRecord_hbuf : (r.setRecord h).hbuf = r.hbuf := rfl
@[simp] theorem setRecord_hcnt : (r.setRecord h).hcnt = r.hcnt := rfl
@[simp] theorem setRecord_crc : (r.setRecord h).crc = r.crc := rfl
@[simp] theorem setRecord_ph : (r.setRecord h).ph = .hdr := rfl
@[simp] theorem setRecord_status : (r.setRecord h).status = r.status := rfl
@[simp] theorem setRecord_perr : (r.setRecord h).perr = r.perr := rfl
@[simp] theorem setRecord_verseen : (r.setRecord h).verseen = r.verseen := rfl
@[simp] theorem setRecord_maxver : (r.setRecord h).maxver = r.maxver := rfl
@[simp] theorem setRecord_crcst : (r.setRecord h).crcst = r.crcst := rfl
@[simp] theorem setRecord_nlen : (r.setRecord h).nlen = fieldNlen h := rfl
@[simp] theorem setRecord_name : (r.setRecord h).name = nameArray h (fieldNlen h) := rfl
@[simp] theorem setRecord_typeTag : (r.setRecord h).typeTag = fieldType h := rfl
@[simp] theorem setRecord_dsize : (r.setRecord h).dsize = fieldDsize h := rfl
@[simp] theorem setRecord_rsize : (r.setRecord h).rsize = fieldRsize h := rfl
@[simp] theorem setRecord_clen : (r.setRecord h).clen = fieldClen h := rfl
@[simp] theorem setRecord_shsize : (r.setRecord h).shsize = fieldShsize h := rfl
@[simp] theorem setRecord_fsize : (r.setRecord h).fsize = r.fsize := rfl
@[simp] theorem setRecord_pres : (r.setRecord h).pres = r.pres := rfl
@[simp] theorem setRecord_doff : (r.setRecord h).doff = r.doff := rfl
@[simp] theorem setRecord_roff : (r.setRecord h).roff = r.roff := rfl
@[simp] theorem setRecord_coff : (r.setRecord h).coff = r.coff := rfl

end setRecord

@[simp] theorem restart_eq (r : Regs) : r.restart = Regs.reset := rfl

@[simp] theorem reset_regs : State.reset.regs = Regs.reset := rfl

end Sys2Proof.Laws
end

