-- ==== Sys2Proof/Laws/Ops.lean ====
section
/-! SUPPORT. The parameters as numbers, and what each shared operation can do, said once: the header fields, the bounds
check, the refusal of illegal words, taking an input. -/

namespace Sys2Proof.Laws

open Sys2Proof.Machine

@[simp] theorem config_crc : config.crc = xmodem := rfl
@[simp] theorem config_block : config.block = 128 := rfl
@[simp] theorem config_hdrLen : config.hdrLen = 128 := rfl
@[simp] theorem config_crcSpan : config.crcSpan = 124 := rfl
@[simp] theorem config_nameMin : config.nameMin = 1 := rfl
@[simp] theorem config_nameMax : config.nameMax = 63 := rfl
@[simp] theorem config_maxVer : config.maxVer = 0x81#8 := rfl
@[simp] theorem config_padWhenAligned : config.padWhenAligned = 0 := rfl
@[simp] theorem errCode_tooSmall : config.errCode .tooSmall = 3#8 := rfl
@[simp] theorem errCode_notContainerFormat : config.errCode .notContainerFormat = 4#8 := rfl
@[simp] theorem errCode_versionTooNew : config.errCode .versionTooNew = 5#8 := rfl
@[simp] theorem errCode_checksumMismatch : config.errCode .checksumMismatch = 6#8 := rfl

/-- The constraints 60_exceptions.md R191 puts on the codes: injective, and never 0. -/
theorem errCode_injective {e e' : TaxonomyError} (h : config.errCode e = config.errCode e') : e = e' := by
  revert h
  cases e <;> cases e' <;> decide

theorem errCode_ne_zero (e : TaxonomyError) : config.errCode e ≠ 0 := by
  cases e <;> decide

/-! The header fields by the offsets of 30_encoding.md R90. -/

theorem fieldMarker_eq (h : Header) : fieldMarker h = h 0x00 := rfl
theorem fieldNlen_eq (h : Header) : fieldNlen h = h 0x01 := rfl
theorem fieldNameByte_eq (h : Header) (i : NameIdx) : fieldNameByte h i = h ⟨2 + i.val, by omega⟩ := rfl
theorem fieldType_eq (h : Header) : fieldType h = h 0x41 ++ h 0x42 ++ h 0x43 ++ h 0x44 := rfl
theorem fieldDsize_eq (h : Header) : fieldDsize h = h 0x53 ++ h 0x54 ++ h 0x55 ++ h 0x56 := rfl
theorem fieldRsize_eq (h : Header) : fieldRsize h = h 0x57 ++ h 0x58 ++ h 0x59 ++ h 0x5A := rfl
theorem fieldClen_eq (h : Header) : fieldClen h = h 0x63 ++ h 0x64 := rfl
theorem fieldShsize_eq (h : Header) : fieldShsize h = h 0x78 ++ h 0x79 := rfl
theorem fieldMinver_eq (h : Header) : fieldMinver h = h 0x7B := rfl
theorem fieldCrc_eq (h : Header) : fieldCrc h = h 0x7C ++ h 0x7D := rfl

theorem nameLengthOk_iff (n : Byte) : nameLengthOk n = true ↔ 1 ≤ n.toNat ∧ n.toNat ≤ 63 := by
  rw [nameLengthOk, Bool.and_eq_true]
  exact and_congr decide_eq_true_iff decide_eq_true_iff

theorem nameArray_get (h : Header) (n : Byte) (i : NameIdx) :
    (nameArray h n)[i] = if i.val < n.toNat then h ⟨2 + i.val, by omega⟩ else 0 := by
  simp [nameArray, fieldNameByte_eq]

/-- Filling the elements from index `n` on does not change the first `n`. -/
theorem take_ofFn_fill {m : Nat} (f : Fin m → Byte) (n : Nat) :
    (Vector.ofFn fun i : Fin m => if i.val < n then f i else 0).toList.take n = (List.ofFn f).take n := by
  refine List.ext_getElem (by simp) fun k hk _ => ?_
  have hk' : k < n := by simp at hk; exact hk.1
  simp [hk']

/-- The name is the same whether taken from `NAME` or from the header. -/
theorem nameArray_take (h : Header) (n : Byte) :
    (nameArray h n).toList.take n.toNat = (List.ofFn (fieldNameByte h)).take n.toNat :=
  take_ofFn_fill (fieldNameByte h) n.toNat

/-- The bounds check answers one of three things (42_segment_locator.md R162). -/
theorem checkSegment_cases (n base len : Nat) (k : Segment) (p : BitVec 3) :
    (len = 0 ∧ checkSegment n base len k p = some p) ∨
    (0 < len ∧ base + len ≤ n ∧ checkSegment n base len k p = some (p ||| k.flag)) ∨
    (0 < len ∧ n < base + len ∧ checkSegment n base len k p = none) := by
  unfold checkSegment fits
  rcases Nat.eq_zero_or_pos len with h | h
  · exact .inl ⟨h, by simp [h]⟩
  · rcases Nat.lt_or_ge n (base + len) with h' | h'
    · exact .inr (.inr ⟨h, h', by simp [Nat.ne_of_gt h, Nat.not_le.mpr h']⟩)
    · exact .inr (.inl ⟨h, h', by simp [Nat.ne_of_gt h, h']⟩)

theorem checkSegment_fits {n base len : Nat} (h : 0 < len → base + len ≤ n) (k : Segment) (p : BitVec 3) :
    checkSegment n base len k p = some (p ||| if 0 < len then k.flag else 0) := by
  rcases checkSegment_cases n base len k p with ⟨h0, e⟩ | ⟨h0, _, e⟩ | ⟨h0, h1, _⟩
  · rw [e, if_neg (by omega)]
    exact congrArg some (BitVec.or_zero).symm
  · rw [e, if_pos h0]
  · exact absurd (h h0) (Nat.not_le.mpr h1)

theorem checkSegment_tooSmall {n base len : Nat} (h : 0 < len) (h' : n < base + len) (k : Segment) (p : BitVec 3) :
    checkSegment n base len k p = none := by
  rcases checkSegment_cases n base len k p with ⟨h0, _⟩ | ⟨_, h1, _⟩ | ⟨_, _, e⟩
  · omega
  · omega
  · exact e

/-- An illegal word is refused, and answers 0 where its `op` is that of RD (43_control_commands.md R182). -/
theorem refuseWord_eq (s : State) (e : IllegalWord) :
    s.refuseWord e = { s with regs := s.regs.refuse, response := if e = .rdArg then some 0 else s.response } := by
  cases e <;> rfl

theorem nextInput_nil {s : State} (h : s.inputs = []) : s.nextInput = none := by
  simp [State.nextInput, h]

theorem nextInput_cons {s : State} {i : PortInput} {rest : List PortInput} (h : s.inputs = i :: rest) :
    s.nextInput = some (i, s.take rest) := by
  simp [State.nextInput, h]

/-- Everything a step can do: hold the state, reset, run a command, refuse an illegal word. -/
theorem step_cases {s t : State} (h : step s = .next t) :
    (s.inputs = [] ∧ t = s) ∨
    (∃ rest, s.inputs = .hardReset :: rest ∧ t = (s.take rest).hardReset) ∨
    (∃ w rest i, s.inputs = .command w :: rest ∧ decodeWord w = .ok i ∧ exec i (s.take rest) = .next t) ∨
    (∃ w rest e, s.inputs = .command w :: rest ∧ decodeWord w = .error e ∧ t = (s.take rest).refuseWord e) := by
  unfold step at h
  match hi : s.inputs with
  | [] =>
    rw [nextInput_nil hi] at h
    exact .inl ⟨rfl, by simpa using h.symm⟩
  | .hardReset :: rest =>
    rw [nextInput_cons hi] at h
    exact .inr (.inl ⟨rest, rfl, by simpa using h.symm⟩)
  | .command w :: rest =>
    rw [nextInput_cons hi] at h
    cases hw : decodeWord w with
    | ok i => exact .inr (.inr (.inl ⟨w, rest, i, rfl, hw, by simpa [hw] using h⟩))
    | error e => exact .inr (.inr (.inr ⟨w, rest, e, rfl, hw, by simpa [hw] using h.symm⟩))

end Sys2Proof.Laws
end

