-- ==== Sys2Proof/Laws/Checksum.lean ====
section
/-! SUPPORT. Laws of the checksum engine: the fold, the linear round, and the prefix of a header block that a running
checksum covers. -/

namespace Sys2Proof.Laws

open Sys2Proof.Machine

theorem crcFold_append {w : Nat} (p : ChecksumParameters w) (reg : BitVec w) (a b : List Byte) :
    crcFold p reg (a ++ b) = crcFold p (crcFold p reg a) b :=
  List.foldl_append

@[simp] theorem crcFold_nil {w : Nat} (p : ChecksumParameters w) (reg : BitVec w) : crcFold p reg [] = reg := rfl

@[simp] theorem crcFold_cons {w : Nat} (p : ChecksumParameters w) (reg : BitVec w) (b : Byte) (data : List Byte) :
    crcFold p reg (b :: data) = crcFold p (crcByte p reg b) data := rfl

/-- The output stage of the block's parameters changes nothing (40_checksum_engine.md R124, corner case). -/
@[simp] theorem crcFinal_xmodem (r : CrcWord) : crcFinal xmodem r = r := by
  simp [crcFinal, xmodem]

@[simp] theorem x16_nil : x16 [] = 0 := crcFinal_xmodem 0

/-- The checksum is the fold alone (40_checksum_engine.md R126). -/
theorem x16_eq_foldl (data : List Byte) : x16 data = data.foldl x16Byte 0 := crcFinal_xmodem _

/-- One more byte is one more `x16_byte`. -/
theorem x16_concat (data : List Byte) (b : Byte) : x16 (data ++ [b]) = x16Byte (x16 data) b := by
  simp [x16, x16Byte, crcFold_append]

/-- A round is linear over XOR: the polynomial is added where the top bit of the register is set. -/
theorem crcRound_xor {w : Nat} (p : ChecksumParameters w) (r r' : BitVec w) :
    crcRound p (r ^^^ r') = crcRound p r ^^^ crcRound p r' := by
  unfold crcRound
  rw [BitVec.msb_xor, BitVec.shiftLeft_xor_distrib]
  generalize r <<< 1 = a
  generalize r' <<< 1 = b
  generalize p.polynomial = q
  cases r.msb <;> cases r'.msb <;> simp
  · exact BitVec.xor_assoc a b q
  · rw [BitVec.xor_assoc, BitVec.xor_comm b q, ← BitVec.xor_assoc]
  · rw [BitVec.xor_comm b q, ← BitVec.xor_assoc, BitVec.xor_assoc a q q]
    simp

theorem crcRounds_xor {w : Nat} (p : ChecksumParameters w) (k : Nat) (r r' : BitVec w) :
    crcRounds p k (r ^^^ r') = crcRounds p k r ^^^ crcRounds p k r' := by
  induction k generalizing r r' with
  | zero => rfl
  | succ k ih => rw [crcRounds, crcRound_xor, ih]; rfl

/-! Prefixes of a header block. -/

@[simp] theorem headerBytes_length (h : Header) : (headerBytes h).length = 128 := List.length_ofFn

theorem headerBytes_get (h : Header) (a : HAddr) : (headerBytes h)[a.val]'(by simp) = h a :=
  List.getElem_ofFn _

theorem take_succ_headerBytes (h : Header) (i : HAddr) :
    (headerBytes h).take (i.val + 1) = (headerBytes h).take i.val ++ [h i] := by
  rw [List.take_add_one, List.getElem?_eq_getElem (by simp), headerBytes_get]
  rfl

/-- Blocks that agree below index `k` have the same first `k` bytes. -/
theorem take_headerBytes_congr {h h' : Header} {k : Nat} (hk : ∀ a : HAddr, a.val < k → h a = h' a) :
    (headerBytes h).take k = (headerBytes h').take k := by
  refine List.ext_getElem (by simp) fun i hi _ => ?_
  have hi' : i < k ∧ i < 128 := by simpa using hi
  rw [List.getElem_take, List.getElem_take]
  exact (headerBytes_get h ⟨i, hi'.2⟩).trans ((hk ⟨i, hi'.2⟩ hi'.1).trans (headerBytes_get h' ⟨i, hi'.2⟩).symm)

/-- A write at index `i` leaves the bytes below it alone. -/
theorem take_headerBytes_write (m : Memory) (i : HAddr) (v : Byte) {k : Nat} (hk : k ≤ i.val) :
    (headerBytes (m.write i v).read).take k = (headerBytes m.read).take k :=
  take_headerBytes_congr fun a ha => read_write_other m (fun e => by subst e; omega) v

/-- The checksum that DEC's function computes looks at bytes [0,124) only. -/
theorem headerChecksum_congr {h h' : Header} (hk : ∀ a : HAddr, a.val < 124 → h a = h' a) :
    headerChecksum h = headerChecksum h' :=
  congrArg x16 (take_headerBytes_congr hk)

end Sys2Proof.Laws
end

