-- ==== Sys2Proof/Laws/Encoding.lean ====
section
/-! SUPPORT. The fields of an encoded command word, and the numbers of registers. -/

namespace Sys2Proof.Laws

/-- The bits of two values put one above the other, from bit `start` of the lower one on. -/
theorem append_lower {m n : Nat} (a : BitVec m) (b : BitVec n) (start len : Nat) (h : start + len ≤ n) :
    (a ++ b).extractLsb' start len = b.extractLsb' start len := by
  ext j hj
  simp [BitVec.getLsbD_append, show start + j < n by omega]

/-- The upper one of two values put one above the other. -/
theorem append_upper {m n : Nat} (a : BitVec m) (b : BitVec n) : (a ++ b).extractLsb' n m = a := by
  ext j hj
  simp [BitVec.getLsbD_append, BitVec.getLsbD_eq_getElem hj]

theorem append_fields_of {m n : Nat} (w : BitVec (m + n)) :
    w.extractLsb' n m ++ w.extractLsb' 0 n = w := by
  simp

/-- A word is its `op` above its `arg` (30_encoding.md R96). -/
theorem append_fields (w : CmdWord) : opField w ++ argField w = w :=
  append_fields_of (m := 4) (n := 64) w

theorem append_op (a : BitVec 4) (b : BitVec 64) : (a ++ b).extractLsb' 64 4 = a := append_upper a b

theorem append_arg (a : BitVec 4) (b : BitVec 64) : (a ++ b).extractLsb' 0 64 = b :=
  (append_lower a b 0 64 (by omega)).trans (by simp)

theorem append_low (a : BitVec 4) (b : BitVec 64) : (a ++ b).extractLsb' 0 8 = b.setWidth 8 :=
  (append_lower a b 0 8 (by omega)).trans (by ext j hj; simp)

theorem append_high (a : BitVec 4) (b : BitVec 64) : (a ++ b).extractLsb' 8 56 = b.extractLsb' 8 56 :=
  append_lower a b 8 56 (by omega)

theorem argField_encode (i : Instr) : argField (encode i) = i.arg := append_arg i.op i.arg

theorem argLow_encode (i : Instr) : argLow (encode i) = i.arg.setWidth 8 := append_low i.op i.arg

theorem argHigh_encode (i : Instr) : argHigh (encode i) = i.arg.extractLsb' 8 56 := append_high i.op i.arg

/-- An operand byte fills the low 8 bits of `arg`; the rest is 0. -/
theorem byte_high (b : Byte) : (b.setWidth 64).extractLsb' 8 56 = 0 := by
  ext j hj
  simp

theorem decodeReg_number {r : Reg} (h : r.wf = true) : decodeReg r.number = r := by
  cases r with
  | name i => revert i; decide
  | hbuf i => revert i; decide
  | unassigned n => revert n; decide
  | _ => rfl

theorem number_decodeReg (n : Byte) : (decodeReg n).number = n := by
  revert n
  decide

theorem wf_decodeReg (n : Byte) : (decodeReg n).wf = true := by
  revert n
  decide

/-- Everything the decoder can answer, by the fields of the word (30_encoding.md R97, R99). -/
theorem decodeWord_cases (w : CmdWord) :
    ((opField w).toNat = 1 ∧ argField w = 0 ∧ decodeWord w = .ok .rst) ∨
    ((opField w).toNat = 1 ∧ argField w ≠ 0 ∧ decodeWord w = .error .rstArg) ∨
    ((opField w).toNat = 2 ∧ argHigh w = 0 ∧ decodeWord w = .ok (.ldb (argLow w))) ∨
    ((opField w).toNat = 2 ∧ argHigh w ≠ 0 ∧ decodeWord w = .error .ldbArg) ∨
    ((opField w).toNat = 3 ∧ argField w = 0 ∧ decodeWord w = .ok .dec) ∨
    ((opField w).toNat = 3 ∧ argField w ≠ 0 ∧ decodeWord w = .error .decArg) ∨
    ((opField w).toNat = 4 ∧ decodeWord w = .ok (.loc (argField w))) ∨
    ((opField w).toNat = 5 ∧ argHigh w = 0 ∧ decodeWord w = .ok (.rd (decodeReg (argLow w)))) ∨
    ((opField w).toNat = 5 ∧ argHigh w ≠ 0 ∧ decodeWord w = .error .rdArg) ∨
    (((opField w).toNat = 0 ∨ 6 ≤ (opField w).toNat) ∧ decodeWord w = .error (.reservedOp (opField w))) := by
  unfold decodeWord
  have hlt := (opField w).isLt
  split <;> rename_i ho
  · by_cases h : argField w = 0 <;> simp [ho, h, em]
  · by_cases h : argHigh w = 0 <;> simp [ho, h, em]
  · by_cases h : argField w = 0 <;> simp [ho, h, em]
  · simp [ho]
  · by_cases h : argHigh w = 0 <;> simp [ho, h, em]
  · rename_i h1 h2 h3 h4
    have h : (opField w).toNat = 0 ∨ 6 ≤ (opField w).toNat := by
      rcases Nat.lt_or_ge (opField w).toNat 6 with h | h
      · interval_cases hn : (opField w).toNat <;> simp_all
      · exact .inr h
    simp [h]

end Sys2Proof.Laws
end

