-- ==== Sys2Proof/Laws/Exec.lean ====
section
/-! SUPPORT. Everything each command can do, said once per command (inversion lemmas over the meanings). -/

namespace Sys2Proof.Laws

open Sys2Proof.Machine

/-- LDB stores its byte, or is refused. -/
theorem execLdb_cases (b : Byte) (s : State) :
    (∃ i : HAddr, s.regs.ph = .load ∧ s.regs.hcnt.toNat = i.val ∧
      execLdb b s = .next (s.setRegs (s.regs.loadByte i b))) ∨
    ((s.regs.ph ≠ .load ∨ 128 ≤ s.regs.hcnt.toNat) ∧ execLdb b s = .next s.refuse) := by
  unfold execLdb
  split_ifs with h
  · exact .inl ⟨⟨_, h.2⟩, h.1, rfl, rfl⟩
  · exact .inr ⟨by by_contra hc; push Not at hc; exact h hc, rfl⟩

/-- DEC, once accepted, raises the first error that applies or writes the record. -/
theorem decode_cases (r : Regs) :
    let h := r.hbuf.read
    (r.hcnt.toNat < 128 ∧ r.decode = r.raise .tooSmall) ∨
    (128 ≤ r.hcnt.toNat ∧ (h 0 ≠ 0 ∨ ¬ (1 ≤ (h 1).toNat ∧ (h 1).toNat ≤ 63)) ∧
      r.decode = r.raise .notContainerFormat) ∨
    (128 ≤ r.hcnt.toNat ∧ h 0 = 0 ∧ 1 ≤ (h 1).toNat ∧ (h 1).toNat ≤ 63 ∧ r.maxver.toNat < (h 0x7B).toNat ∧
      r.decode = { r with verseen := h 0x7B }.raise .versionTooNew) ∨
    (128 ≤ r.hcnt.toNat ∧ h 0 = 0 ∧ 1 ≤ (h 1).toNat ∧ (h 1).toNat ≤ 63 ∧ (h 0x7B).toNat ≤ r.maxver.toNat ∧
      r.crc ≠ h 0x7C ++ h 0x7D ∧
      r.decode = { r with verseen := h 0x7B, crcst := h 0x7C ++ h 0x7D }.raise .checksumMismatch) ∨
    (128 ≤ r.hcnt.toNat ∧ h 0 = 0 ∧ 1 ≤ (h 1).toNat ∧ (h 1).toNat ≤ 63 ∧ (h 0x7B).toNat ≤ r.maxver.toNat ∧
      r.crc = h 0x7C ++ h 0x7D ∧
      r.decode = { r with verseen := h 0x7B, crcst := h 0x7C ++ h 0x7D }.setRecord h) := by
  intro h
  have hn := nameLengthOk_iff (h 1)
  unfold Regs.decode Regs.decVersion Regs.decChecksum
  dsimp only
  by_cases h1 : r.hcnt.toNat < 128
  · exact .inl ⟨h1, if_pos h1⟩
  have h1' := Nat.not_lt.mp h1
  rw [if_neg h1]
  by_cases h2 : fieldMarker r.hbuf.read = 0
  swap
  · exact .inr (.inl ⟨h1', .inl h2, if_pos h2⟩)
  rw [if_neg (not_not.mpr h2)]
  by_cases h3 : nameLengthOk (fieldNlen r.hbuf.read) = true
  swap
  · exact .inr (.inl ⟨h1', .inr fun hc => h3 (hn.mpr hc), if_pos h3⟩)
  obtain ⟨hl, hu⟩ := hn.mp h3
  rw [if_neg (not_not.mpr h3)]
  by_cases h4 : r.maxver.toNat < (fieldMinver r.hbuf.read).toNat
  · exact .inr (.inr (.inl ⟨h1', h2, hl, hu, h4, if_pos h4⟩))
  rw [if_neg h4]
  have h4' := Nat.not_lt.mp h4
  by_cases h5 : r.crc = fieldCrc r.hbuf.read
  · exact .inr (.inr (.inr (.inr ⟨h1', h2, hl, hu, h4', h5, if_neg (not_not.mpr h5)⟩)))
  · exact .inr (.inr (.inr (.inl ⟨h1', h2, hl, hu, h4', h5, if_pos h5⟩)))

/-- The function `decode`: the step at which it fails, or the record. -/
theorem decodeHeader_cases (h : Header) :
    ((h 0 ≠ 0 ∨ ¬ (1 ≤ (h 1).toNat ∧ (h 1).toNat ≤ 63)) ∧ decodeHeader h = .error .notContainerFormat) ∨
    (h 0 = 0 ∧ 1 ≤ (h 1).toNat ∧ (h 1).toNat ≤ 63 ∧ 0x81 < (h 0x7B).toNat ∧
      decodeHeader h = .error (.versionTooNew (h 0x7B) 0x81)) ∨
    (h 0 = 0 ∧ 1 ≤ (h 1).toNat ∧ (h 1).toNat ≤ 63 ∧ (h 0x7B).toNat ≤ 0x81 ∧
      headerChecksum h ≠ h 0x7C ++ h 0x7D ∧
      decodeHeader h = .error (.checksumMismatch (headerChecksum h) (h 0x7C ++ h 0x7D))) ∨
    (h 0 = 0 ∧ 1 ≤ (h 1).toNat ∧ (h 1).toNat ≤ 63 ∧ (h 0x7B).toNat ≤ 0x81 ∧
      headerChecksum h = h 0x7C ++ h 0x7D ∧ decodeHeader h = .ok (extractRecord h)) := by
  have hn := nameLengthOk_iff (h 1)
  unfold decodeHeader
  by_cases h2 : fieldMarker h = 0
  swap
  · exact .inl ⟨.inl h2, if_pos h2⟩
  rw [if_neg (not_not.mpr h2)]
  by_cases h3 : nameLengthOk (fieldNlen h) = true
  swap
  · exact .inl ⟨.inr fun hc => h3 (hn.mpr hc), if_pos h3⟩
  obtain ⟨hl, hu⟩ := hn.mp h3
  rw [if_neg (not_not.mpr h3)]
  by_cases h4 : config.maxVer.toNat < (fieldMinver h).toNat
  · exact .inr (.inl ⟨h2, hl, hu, h4, if_pos h4⟩)
  rw [if_neg h4]
  have h4' := Nat.not_lt.mp h4
  by_cases h5 : headerChecksum h = fieldCrc h
  · exact .inr (.inr (.inr ⟨h2, hl, hu, h4', h5, if_neg (not_not.mpr h5)⟩))
  · exact .inr (.inr (.inl ⟨h2, hl, hu, h4', h5, if_pos h5⟩))

/-- DEC runs in LOAD and is refused elsewhere. -/
theorem execDec_cases (s : State) :
    (s.regs.ph = .load ∧ execDec s = .next (s.setRegs s.regs.decode)) ∨
    (s.regs.ph ≠ .load ∧ execDec s = .next s.refuse) := by
  unfold execDec
  split_ifs with h
  · exact .inl ⟨h, rfl⟩
  · exact .inr ⟨h, rfl⟩

/-- LOC runs in HDR and is refused elsewhere. -/
theorem execLoc_cases (n : Offset) (s : State) :
    (s.regs.ph = .hdr ∧ execLoc n s = .next (s.setRegs (s.regs.locate n))) ∨
    (s.regs.ph ≠ .hdr ∧ execLoc n s = .next s.refuse) := by
  unfold execLoc
  split_ifs with h
  · exact .inl ⟨h, rfl⟩
  · exact .inr ⟨h, rfl⟩

/-- RD responds with a register, or responds 0 and is refused. -/
theorem execRd_cases (r : Reg) (s : State) :
    (∃ v, s.regs.value r = some v ∧ execRd r s = .next (s.respond v)) ∨
    (s.regs.value r = none ∧ execRd r s = .next (s.respond 0).refuse) := by
  unfold execRd
  cases h : s.regs.value r with
  | some v => exact .inl ⟨v, rfl, rfl⟩
  | none => exact .inr ⟨rfl, rfl⟩

/-- A segment that is absent or lies in the file. -/
abbrev Fits (n : Nat) (base len : Nat) : Prop := 0 < len → base + len ≤ n

theorem fits_or (n base len : Nat) : Fits n base len ∨ (0 < len ∧ n < base + len) := by
  unfold Fits
  omega

/-- LOC, once accepted: the segment at which it stops, or the whole layout. -/
theorem locate_cases (r : Regs) (n : Offset) :
    let db := dataBase r.shsize.toNat
    let rb := resBase r.shsize.toNat r.dsize.toNat
    let cb := commentBase r.shsize.toNat r.dsize.toNat r.rsize.toNat
    let p0 := r.pres ||| if 0 < r.dsize.toNat then Segment.data.flag else 0
    let p1 := p0 ||| if 0 < r.rsize.toNat then Segment.resource.flag else 0
    let p2 := p1 ||| if 0 < r.clen.toNat then Segment.comment.flag else 0
    (0 < r.dsize.toNat ∧ n.toNat < db + r.dsize.toNat ∧
      r.locate n = { r with fsize := n, doff := BitVec.ofNat 64 db }.raise .tooSmall) ∨
    (Fits n.toNat db r.dsize.toNat ∧ 0 < r.rsize.toNat ∧ n.toNat < rb + r.rsize.toNat ∧
      r.locate n = { r with fsize := n, doff := BitVec.ofNat 64 db, pres := p0,
                            roff := BitVec.ofNat 64 rb }.raise .tooSmall) ∨
    (Fits n.toNat db r.dsize.toNat ∧ Fits n.toNat rb r.rsize.toNat ∧ 0 < r.clen.toNat ∧
      n.toNat < cb + r.clen.toNat ∧
      r.locate n = { r with fsize := n, doff := BitVec.ofNat 64 db, pres := p1, roff := BitVec.ofNat 64 rb,
                            coff := BitVec.ofNat 64 cb }.raise .tooSmall) ∨
    (Fits n.toNat db r.dsize.toNat ∧ Fits n.toNat rb r.rsize.toNat ∧ Fits n.toNat cb r.clen.toNat ∧
      r.locate n = { r with fsize := n, doff := BitVec.ofNat 64 db, pres := p2, roff := BitVec.ofNat 64 rb,
                            coff := BitVec.ofNat 64 cb, ph := .done }) := by
  intro db rb cb p0 p1 p2
  unfold Regs.locate Regs.locData
  dsimp only
  rcases fits_or n.toNat db r.dsize.toNat with hd | ⟨hd, hd'⟩
  swap
  · exact .inl ⟨hd, hd', by rw [checkSegment_tooSmall hd hd']⟩
  rw [checkSegment_fits hd]
  unfold Regs.locResource
  dsimp only
  rcases fits_or n.toNat rb r.rsize.toNat with hr | ⟨hr, hr'⟩
  swap
  · exact .inr (.inl ⟨hd, hr, hr', by rw [checkSegment_tooSmall hr hr']⟩)
  rw [checkSegment_fits hr]
  unfold Regs.locComment
  dsimp only
  rcases fits_or n.toNat cb r.clen.toNat with hc | ⟨hc, hc'⟩
  swap
  · exact .inr (.inr (.inl ⟨hd, hr, hc, hc', by rw [checkSegment_tooSmall hc hc']⟩))
  · exact .inr (.inr (.inr ⟨hd, hr, hc, by rw [checkSegment_fits hc]⟩))

/-- The function `locate`: the segment at which it stops, or the whole layout. -/
theorem locateFunction_cases (sh d r c n : Nat) :
    let db := dataBase sh
    let rb := resBase sh d
    let cb := commentBase sh d r
    let p0 := 0 ||| if 0 < d then Segment.data.flag else 0
    let p1 := p0 ||| if 0 < r then Segment.resource.flag else 0
    let p2 := p1 ||| if 0 < c then Segment.comment.flag else 0
    (0 < d ∧ n < db + d ∧ locate sh d r c n = .error ⟨db, none, none, 0⟩) ∨
    (Fits n db d ∧ 0 < r ∧ n < rb + r ∧ locate sh d r c n = .error ⟨db, some rb, none, p0⟩) ∨
    (Fits n db d ∧ Fits n rb r ∧ 0 < c ∧ n < cb + c ∧ locate sh d r c n = .error ⟨db, some rb, some cb, p1⟩) ∨
    (Fits n db d ∧ Fits n rb r ∧ Fits n cb c ∧ locate sh d r c n = .ok ⟨db, some rb, some cb, p2⟩) := by
  intro db rb cb p0 p1 p2
  unfold locate
  dsimp only
  rcases fits_or n db d with hd | ⟨hd, hd'⟩
  swap
  · exact .inl ⟨hd, hd', by rw [checkSegment_tooSmall hd hd']⟩
  rw [checkSegment_fits hd]
  dsimp only
  rcases fits_or n rb r with hr | ⟨hr, hr'⟩
  swap
  · exact .inr (.inl ⟨hd, hr, hr', by rw [checkSegment_tooSmall hr hr']⟩)
  rw [checkSegment_fits hr]
  dsimp only
  rcases fits_or n cb c with hc | ⟨hc, hc'⟩
  swap
  · exact .inr (.inr (.inl ⟨hd, hr, hc, hc', by rw [checkSegment_tooSmall hc hc']⟩))
  · exact .inr (.inr (.inr ⟨hd, hr, hc, by rw [checkSegment_fits hc]⟩))

end Sys2Proof.Laws
end

