-- ==== Sys2Proof/Laws/PerInstr.lean ====
section
/-! SUPPORT. Facts about every command as syntax, one lemma per constructor. Family `OpField`: the `op` field of a
command's word is the command's number in 30_encoding.md R97. -/

namespace Sys2Proof.Laws

/-- `cmd[67:64]` of the encoded command is its operation number. -/
def OpField.Statement (i : Instr) : Prop := opField (encode i) = i.op

theorem OpField.rst : OpField.Statement .rst := append_op _ _

theorem OpField.ldb (b : Byte) : OpField.Statement (.ldb b) := append_op _ _

theorem OpField.dec : OpField.Statement .dec := append_op _ _

theorem OpField.loc (n : Offset) : OpField.Statement (.loc n) := append_op _ _

theorem OpField.rd (r : Reg) : OpField.Statement (.rd r) := append_op _ _

theorem opField_encode (i : Instr) : opField (encode i) = i.op := by
  cases i with
  | rst => exact OpField.rst
  | ldb b => exact OpField.ldb b
  | dec => exact OpField.dec
  | loc n => exact OpField.loc n
  | rd r => exact OpField.rd r

end Sys2Proof.Laws
end

