-- ==== Sys2Proof/Machine/Assembler.lean ====
section
/-! DEFINITION. The textual form of commands and the pseudo-commands (30_encoding.md R102, R103). It is a way of
writing command words; no step of the machine uses it. What the spec leaves open about the text is in logs 20 and 23. -/

namespace Sys2Proof.Machine

/-- The pseudo-commands (30_encoding.md R103). -/
inductive Pseudo where
  /-- `LDH b0 b1 ... bk` -/
  | ldh (bytes : List Byte)
  /-- `LDS "text"`, its characters' ASCII codes -/
  | lds (codes : List Byte)
  /-- `PASS <128 bytes>, <size>` -/
  | pass (header : Vector Byte 128) (size : Offset)
deriving DecidableEq, Repr

/-- The commands a pseudo-command stands for, in order (30_encoding.md R103). -/
def Pseudo.expand : Pseudo → List Instr
  | .ldh bytes => bytes.map .ldb
  | .lds codes => codes.map .ldb
  | .pass header size => .rst :: (header.toList.map .ldb ++ [.dec, .loc size])

/-- A line without its comment: "A `;` starts a comment" (30_encoding.md R102). -/
def stripComment : List Char → List Char
  | [] => []
  | c :: rest => if c = ';' then [] else c :: stripComment rest

/-- A character that separates words. -/
def isBlank (c : Char) : Bool := c == ' ' || c == '\t' || c == '\r' || c == '\n'

/-- The words of a line; a comma is a word of its own. `cur` is the word being read, last character first. -/
def wordsFrom (cur : List Char) : List Char → List (List Char)
  | [] => if cur = [] then [] else [cur.reverse]
  | c :: rest =>
    if isBlank c then (if cur = [] then wordsFrom [] rest else cur.reverse :: wordsFrom [] rest)
    else if c = ',' then
      (if cur = [] then [','] :: wordsFrom [] rest else cur.reverse :: [','] :: wordsFrom [] rest)
    else wordsFrom (c :: cur) rest

/-- The words of a line. -/
def lineWords (line : List Char) : List (List Char) := wordsFrom [] (stripComment line)

/-- The value of a digit below `base`. -/
def digitValue (base : Nat) (c : Char) : Option Nat :=
  let n := c.toNat
  let v :=
    if 48 ≤ n ∧ n ≤ 57 then some (n - 48)
    else if 65 ≤ n ∧ n ≤ 70 then some (n - 55)
    else if 97 ≤ n ∧ n ≤ 102 then some (n - 87)
    else none
  match v with
  | some d => if d < base then some d else none
  | none => none

/-- The number whose digits follow those of `acc`. -/
def digitsFrom (base acc : Nat) : List Char → Option Nat
  | [] => some acc
  | c :: rest =>
    match digitValue base c with
    | some d => digitsFrom base (acc * base + d) rest
    | none => none

/-- A number, "decimal or 0x hex" (30_encoding.md R102). -/
def parseNumber : List Char → Option Nat
  | '0' :: 'x' :: c :: rest => digitsFrom 16 0 (c :: rest)
  | c :: rest => digitsFrom 10 0 (c :: rest)
  | [] => none

/-- A byte, 0 to 255. -/
def parseByte (word : List Char) : Option Byte :=
  match parseNumber word with
  | some n => if n < 256 then some (BitVec.ofNat 8 n) else none
  | none => none

/-- A file size, 0 to 2^64 - 1. -/
def parseSize (word : List Char) : Option Offset :=
  match parseNumber word with
  | some n => if n < 2 ^ 64 then some (BitVec.ofNat 64 n) else none
  | none => none

/-- The register names of 30_encoding.md R100. -/
def regNames : List (List Char × Reg) :=
  [("STATUS".toList, .status), ("PH".toList, .ph), ("HCNT".toList, .hcnt), ("PERR".toList, .perr),
   ("CRC".toList, .crc), ("CRCST".toList, .crcst), ("VERSEEN".toList, .verseen), ("MAXVER".toList, .maxver),
   ("NLEN".toList, .nlen), ("TYPE".toList, .typeTag), ("DSIZE".toList, .dsize), ("RSIZE".toList, .rsize),
   ("CLEN".toList, .clen), ("SHSIZE".toList, .shsize), ("FSIZE".toList, .fsize), ("PRES".toList, .pres),
   ("DOFF".toList, .doff), ("ROFF".toList, .roff), ("COFF".toList, .coff)]

/-- The number `i` of a text `i]`. -/
def parseIndex (word : List Char) : Option Nat :=
  match word.reverse with
  | ']' :: digits => parseNumber digits.reverse
  | _ => none

/-- The operand of `RD`: "a register name of rule R100, NAME[i], HBUF[i], or a number" (30_encoding.md R102). -/
def parseReg (word : List Char) : Option Reg :=
  match regNames.find? (fun entry => entry.1 == word) with
  | some entry => some entry.2
  | none =>
    match word with
    | 'N' :: 'A' :: 'M' :: 'E' :: '[' :: rest =>
      match parseIndex rest with
      | some i => if h : i < 63 then some (.name ⟨i, h⟩) else none
      | none => none
    | 'H' :: 'B' :: 'U' :: 'F' :: '[' :: rest =>
      match parseIndex rest with
      | some i => if h : i < 128 then some (.hbuf ⟨i, h⟩) else none
      | none => none
    | _ =>
      match parseByte word with
      | some r => some (decodeReg r)
      | none => none

/-- Every word as a byte. -/
def parseBytes : List (List Char) → Option (List Byte)
  | [] => some []
  | word :: rest =>
    match parseByte word, parseBytes rest with
    | some b, some bs => some (b :: bs)
    | _, _ => none

/-- The ASCII codes of a text. -/
def asciiCodes : List Char → Option (List Byte)
  | [] => some []
  | c :: rest =>
    match asciiCodes rest with
    | some codes => if c.toNat < 128 then some (BitVec.ofNat 8 c.toNat :: codes) else none
    | none => none

/-- The operands of `PASS`: 128 bytes, a comma, the size. -/
def parsePass (words : List (List Char)) : Option Pseudo :=
  match parseBytes (words.take 128), words.drop 128 with
  | some bytes, [[','], size] =>
    match parseSize size with
    | some n => if h : bytes.length = 128 then some (.pass ⟨⟨bytes⟩, h⟩ n) else none
    | none => none
  | _, _ => none

/-- A line that begins, after blanks, with the word `LDS`: the text between its double quotes, with nothing but a
comment after it. DESIGN CHOICE: a `;` between the quotes is a character of the text and starts no comment; R102 and R103
of 30_encoding.md do not say which wins (log 23). -/
def parseText (line : List Char) : Option (List Byte) :=
  match line.dropWhile isBlank with
  | 'L' :: 'D' :: 'S' :: rest =>
    match rest.dropWhile isBlank with
    | '"' :: body =>
      match body.dropWhile (fun c => c != '"') with
      | '"' :: after => if lineWords after = [] then asciiCodes (body.takeWhile (fun c => c != '"')) else none
      | _ => none
    | _ => none
  | _ => none

/-- The commands one line stands for; an empty line stands for none (30_encoding.md R102, R103). -/
def assembleLine (line : List Char) : Option (List Instr) :=
  match lineWords line with
  | [] => some []
  | word :: operands =>
    if word = "RST".toList ∧ operands = [] then some [.rst]
    else if word = "DEC".toList ∧ operands = [] then some [.dec]
    else if word = "LDH".toList then (parseBytes operands).map (fun bs => (Pseudo.ldh bs).expand)
    else if word = "PASS".toList then (parsePass operands).map Pseudo.expand
    else
      match parseText line with
      | some codes => some (Pseudo.lds codes).expand
      | none =>
        match operands with
        | [operand] =>
          if word = "LDB".toList then (parseByte operand).map (fun b => [.ldb b])
          else if word = "LOC".toList then (parseSize operand).map (fun n => [.loc n])
          else if word = "RD".toList then (parseReg operand).map (fun r => [.rd r])
          else none
        | _ => none

/-- The command words of a sequence of lines, in order; nothing where a line cannot be read. -/
def assemble : List (List Char) → Option (List CmdWord)
  | [] => some []
  | line :: rest =>
    match assembleLine line, assemble rest with
    | some is, some ws => some (is.map encode ++ ws)
    | _, _ => none

end Sys2Proof.Machine
end

