-- ==== Sys2Proof/Tests/Slice0.lean ====
section
/-! SUPPORT. Tests of the model against words and vectors written out from spec/ (95_test_vectors.md where no other
place is named), and, for every obligation that has hypotheses, a concrete state and operands that meet them. -/

namespace Sys2Proof.Tests

open Sys2Proof.Machine

/-- The next state of an outcome, if it is one. -/
def next? : Result → Option State
  | .next s => some s
  | .fault _ => none
  | .refused _ => none

/-- Header A of 95_test_vectors.md section 3.1: its non-zero bytes. -/
def cellsA : Memory :=
  [(0x01, 0x04), (0x02, 0x54), (0x03, 0x45), (0x04, 0x53), (0x05, 0x54), (0x41, 0x54), (0x42, 0x45), (0x43, 0x58),
   (0x44, 0x54), (0x56, 0x40), (0x7B, 0x81), (0x7C, 0xEA), (0x7D, 0x18)]

/-- The registers after `RST` and the 128 bytes of header A. -/
def loadedA : Regs := { Regs.reset with hbuf := cellsA, hcnt := 128, crc := 0xEA18 }

/-- The name of header A, "TEST", in the 63 bytes of `NAME`. -/
def nameA : Vector Byte 63 :=
  Vector.ofFn fun i : Fin 63 => if i.val = 0 then 0x54 else if i.val = 1 then 0x45 else
    if i.val = 2 then 0x53 else if i.val = 3 then 0x54 else 0

/-- The registers after `DEC` of header A (95_test_vectors.md section 3.1). -/
def decodedA : Regs :=
  { loadedA with
    ph := .hdr, verseen := 0x81, crcst := 0xEA18, nlen := 4, name := nameA, typeTag := 0x54455854, dsize := 64 }

/-- The registers after `LOC 256` of header A (95_test_vectors.md section 6, P1). -/
def locatedA : Regs :=
  { decodedA with ph := .done, fsize := 256, pres := 0b001, doff := 128, roff := 256, coff := 256 }

/-- A machine with these registers and this one command word on its port. -/
def issued (r : Regs) (w : CmdWord) : State := { regs := r, inputs := [.command w], response := none }

/-- A machine with these registers and nothing on its ports. -/
def idle (r : Regs) : State := { regs := r, inputs := [], response := none }

/-! ## Well-formedness -/

theorem test_wf_refuses_an_assigned_number_as_unassigned : (Instr.rd (.unassigned 0x04)).wf = false := by decide

theorem test_wf_bounds_of_the_unassigned_numbers :
    (Reg.unassigned 0x12).wf = false ∧ (Reg.unassigned 0x13).wf = true ∧ (Reg.unassigned 0x3F).wf = true ∧
    (Reg.unassigned 0x40).wf = false ∧ (Reg.unassigned 0x7E).wf = false ∧ (Reg.unassigned 0x7F).wf = true ∧
    (Reg.unassigned 0x80).wf = false := by decide

/-! ## Decoding: words written out bit by bit from 30_encoding.md R97, `op` then `arg` -/

theorem test_decode_rst :
    decodeWord (0b0001#4 ++ 0b0000000000000000000000000000000000000000000000000000000000000000#64) = .ok .rst := by
  decide

theorem test_decode_ldb :
    decodeWord (0b0010#4 ++ 0b0000000000000000000000000000000000000000000000000000000000110001#64) =
      .ok (.ldb 0x31) := by
  decide

theorem test_decode_dec :
    decodeWord (0b0011#4 ++ 0b0000000000000000000000000000000000000000000000000000000000000000#64) = .ok .dec := by
  decide

theorem test_decode_loc :
    decodeWord (0b0100#4 ++ 0b1000000000000000000000000000000000000000000000000000000100000000#64) =
      .ok (.loc 0x8000000000000100) := by
  decide

theorem test_decode_rd :
    decodeWord (0b0101#4 ++ 0b0000000000000000000000000000000000000000000000000000000000010010#64) =
      .ok (.rd .coff) := by
  decide

theorem test_decode_rejects_by_name :
    decodeWord 0x60000000000000000#68 = .error (.reservedOp 6) ∧
    decodeWord 0xF0000000000000005#68 = .error (.reservedOp 15) ∧
    decodeWord 0x30000000000000001#68 = .error .decArg ∧
    decodeWord 0x20000000000000100#68 = .error .ldbArg ∧
    decodeWord 0x50000000000000100#68 = .error .rdArg := by decide

theorem test_decodeTableWord_takes_command_words_only :
    decodeTableWord 72 0x40000000000000100 = some (.loc 256) ∧ decodeTableWord 72 (2 ^ 68) = none ∧
    decodeTableWord 72 0 = none := by decide

/-! ## Commands: one step each -/

theorem test_rst_leaves_fail :
    next? (execRst (idle { loadedA with ph := .fail, status := 6, perr := true })) = some State.reset := by decide

theorem test_rst_through_withFetchWord :
    next? (step ((idle locatedA).withFetchWord 72 0x10000000000000000)) = some (idle Regs.reset) := by decide

theorem test_ldb_first_byte :
    next? (execLdb 0x31 State.reset) =
      some (idle { Regs.reset with hbuf := [(0, 0x31)], hcnt := 1, crc := 0x2672 }) := by decide

theorem test_ldb_byte_124_is_stored_and_not_checksummed :
    next? (execLdb 0xEA (idle { loadedA with hbuf := cellsA.take 11, hcnt := 124 })) =
      some (idle { loadedA with hbuf := cellsA.take 12, hcnt := 125 }) := by decide

theorem test_dec_header_A : next? (execDec (idle loadedA)) = some (idle decodedA) := by decide

theorem test_dec_version_before_checksum :
    next? (execDec (idle { loadedA with hbuf := cellsA.take 10 ++ [(0x7B, 0x82), (0x7D, 0x18)], crc := 0xDA7B })) =
      some (idle { loadedA with hbuf := cellsA.take 10 ++ [(0x7B, 0x82), (0x7D, 0x18)], crc := 0xDA7B,
                                ph := .fail, status := 5, verseen := 0x82 }) := by decide

theorem test_loc_header_A : next? (execLoc 256 (idle decodedA)) = some (idle locatedA) := by decide

/-- The lengths of header B with a file one byte too short for the resource segment: section 4.1, n = 767. -/
theorem test_loc_resource_does_not_fit :
    next? (execLoc 767 (idle { decodedA with dsize := 300, rsize := 128, clen := 5, shsize := 1 })) =
      some (idle { decodedA with
        dsize := 300, rsize := 128, clen := 5, shsize := 1, fsize := 767, doff := 256, roff := 640, pres := 0b001,
        status := 3, ph := .fail }) := by decide

theorem test_rd_crc :
    next? (step (issued loadedA 0x50000000000000004)) =
      some { regs := loadedA, inputs := [], response := some 0xEA18 } := by decide

theorem test_rd_unassigned :
    next? (step (issued loadedA 0x5000000000000007F)) =
      some { regs := { loadedA with perr := true }, inputs := [], response := some 0 } := by decide

/-! ## Functions behind the commands -/

theorem test_x16_check_value : x16 [0x31, 0x32, 0x33, 0x34, 0x35, 0x36, 0x37, 0x38, 0x39] = 0x31C3 := by decide +kernel

theorem test_compute_kermit_with_byte_swap :
    compute [0x31, 0x32, 0x33, 0x34, 0x35, 0x36, 0x37, 0x38, 0x39]
      { polynomial := 0x1021#16, initial := 0, finalXor := 0, reflectInput := true, reflectOutput := true,
        byteSwapOutput := true } = some 0x8921 := by decide +kernel

theorem test_compute_crc32_with_byte_swap :
    compute [0x31, 0x32, 0x33, 0x34, 0x35, 0x36, 0x37, 0x38, 0x39]
      { polynomial := 0x04C11DB7#32, initial := 0xFFFFFFFF, finalXor := 0xFFFFFFFF, reflectInput := true,
        reflectOutput := true, byteSwapOutput := true } = some 0x2639F4CB := by decide +kernel

theorem test_bitrev_and_byteswap :
    bitrev 0x695A7565#32 = 0xA6AE5A96#32 ∧ bitrev 0xAA#8 = 0x55#8 ∧ byteswap 0x123456#24 = 0x563412#24 := by decide +kernel


/-- Bytes [0,124) of header A. -/
def spanA : List Byte :=
  [0x00, 0x04, 0x54, 0x45, 0x53, 0x54] ++ (List.replicate 59 0 ++ ([0x54, 0x45, 0x58, 0x54] ++
    (List.replicate 17 0 ++ ([0x40] ++ (List.replicate 36 0 ++ [0x81])))))

theorem test_spanA_is_header_A : (headerBytes cellsA.read).take 124 = spanA := by decide +kernel

/-- The running values are those of the table in section 3.1. -/
theorem test_checksum_of_header_A : x16 spanA = 0xEA18 := by
  have h0 : [0x00, 0x04, 0x54, 0x45, 0x53, 0x54].foldl x16Byte 0 = 0x810C := by decide +kernel
  have h1 : (List.replicate 59 0).foldl x16Byte 0x810C = 0xF7C7 := by decide +kernel
  have h2 : [0x54, 0x45, 0x58, 0x54].foldl x16Byte 0xF7C7 = 0xB9F7 := by decide +kernel
  have h3 : (List.replicate 17 0).foldl x16Byte 0xB9F7 = 0xCC21 := by decide +kernel
  have h4 : [0x40].foldl x16Byte 0xCC21 = 0x7104 := by decide +kernel
  have h5 : (List.replicate 36 0).foldl x16Byte 0x7104 = 0x9869 := by decide +kernel
  have h6 : [0x81].foldl x16Byte 0x9869 = 0xEA18 := by decide +kernel
  rw [Laws.x16_eq_foldl, spanA]
  simp only [List.foldl_append, h0, h1, h2, h3, h4, h5, h6]

theorem test_headerChecksum_header_A : headerChecksum cellsA.read = 0xEA18 :=
  (congrArg x16 test_spanA_is_header_A).trans test_checksum_of_header_A

theorem test_pad :
    pad 0 = 0 ∧ pad 1 = 127 ∧ pad 127 = 1 ∧ pad 128 = 0 ∧ pad 300 = 84 ∧ pad 4294967295 = 1 := by decide

theorem test_locate_skips_empty_segments :
    locate 0 0 10 3 259 = .ok ⟨128, some 128, some 256, 0b110⟩ ∧
    locate 0 0 0 7 134 = .error ⟨128, some 128, some 128, 0b000⟩ := by decide

/-- The examples of 30_encoding.md R102; the `;` inside the quotes is the model's choice (log 23). -/
theorem test_assemble :
    assemble ["LDB 0x31".toList, "LOC 256 ; the size".toList, "RD  CRC".toList, "RST".toList, "DEC".toList,
        "LDS \"A;\"".toList, "RD HBUF[86]".toList] =
      some [0x20000000000000031, 0x40000000000000100, 0x50000000000000004, 0x10000000000000000, 0x30000000000000000,
        0x20000000000000041, 0x2000000000000003B, 0x500000000000000D6] := by decide

/-! ## Witnesses: states and operands that meet the hypotheses of the obligations -/

/-- Header A's record (95_test_vectors.md section 3.1). -/
theorem test_decodeHeader_header_A :
    decodeHeader cellsA.read =
      .ok { name := [0x54, 0x45, 0x53, 0x54], typeTag := 0x54455854, dataSize := 64, resourceSize := 0,
            commentLength := 0, secondaryHeaderSize := 0 } := by
  have h1 : fieldMarker cellsA.read = 0 := by decide
  have h2 : nameLengthOk (fieldNlen cellsA.read) = true := by decide
  have h3 : ¬ config.maxVer.toNat < (fieldMinver cellsA.read).toNat := by decide
  have h4 : headerChecksum cellsA.read = fieldCrc cellsA.read :=
    test_headerChecksum_header_A.trans (by decide)
  unfold decodeHeader
  rw [if_neg (not_not.mpr h1), if_neg (not_not.mpr h2), if_neg h3, if_neg (not_not.mpr h4)]
  decide

theorem witness_inv_loadedA : loadedA.Inv where
  count := by decide
  unloaded := by decide
  running := by
    rw [show min loadedA.hcnt.toNat 124 = 124 by decide]
    exact test_headerChecksum_header_A.symm
  statusFail := by decide
  statusCode := by decide
  noRecord := by decide
  record := by decide
  notDecoded := by decide
  maximum := by decide
  notLocated := by decide

theorem witness_inv_decodedA : decodedA.Inv where
  count := by decide
  unloaded := by decide
  running := by
    rw [show min decodedA.hcnt.toNat 124 = 124 by decide]
    exact test_headerChecksum_header_A.symm
  statusFail := by decide
  statusCode := by decide
  noRecord := by decide
  record := by decide
  notDecoded := by decide
  maximum := by decide
  notLocated := by decide

theorem witness_inv_locatedA : locatedA.Inv where
  count := by decide
  unloaded := by decide
  running := by
    rw [show min locatedA.hcnt.toNat 124 = 124 by decide]
    exact test_headerChecksum_header_A.symm
  statusFail := by decide
  statusCode := by decide
  noRecord := by decide
  record := by decide
  notDecoded := by decide
  maximum := by decide
  notLocated := by decide

/-- A sound state at the end of a pass. -/
theorem witness_sound_locatedA : locatedA.Sound where
  memory := by decide
  inv := witness_inv_locatedA
  faithful :=
    { record := fun _ => test_decodeHeader_header_A.trans (by decide)
      layout := fun _ => by decide
      layoutPart := fun h => absurd h.1 (by decide)
      failure := fun h => absurd h.1 (by decide) }

theorem witness_DecodeOfEncodeGivesTheCommandBack :
    (Instr.rd (.unassigned 0x13)).wf = true ∧ (Instr.rd (.unassigned 0x7F)).wf = true ∧
    (Instr.loc 0xFFFFFFFFFFFFFFFF).wf = true ∧ (Instr.ldb 0xFF).wf = true ∧ (Instr.rd (.hbuf 127)).wf = true := by
  decide

theorem witness_EncodeOfDecodeGivesTheWordBack :
    decodeWord 0x4FFFFFFFFFFFFFFFF#68 = .ok (.loc 0xFFFFFFFFFFFFFFFF) ∧
    decodeWord 0x500000000000000FF#68 = .ok (.rd (.hbuf 127)) := by decide

theorem witness_StepRunsTheDecodedCommand :
    (issued loadedA 0x30000000000000000).inputs = .command 0x30000000000000000 :: [] ∧
    decodeWord 0x30000000000000000#68 = .ok .dec ∧ Instr.dec.wf = true ∧ (idle loadedA).inputs = [] := by decide

/-- One refused word for each case of the rule. -/
theorem witness_RefusedCommandSetsPerrAndNothingElse :
    Regs.reset.Refuses 0x00000000000000000 ∧ Regs.reset.Refuses 0x60000000000000000 ∧
    Regs.reset.Refuses 0xF0000000000000005 ∧ Regs.reset.Refuses 0x10000000000000001 ∧
    Regs.reset.Refuses 0x20000000000000100 ∧ decodedA.Refuses 0x20000000000000000 ∧
    loadedA.Refuses 0x20000000000000055 ∧ Regs.reset.Refuses 0x30000000000000001 ∧
    decodedA.Refuses 0x30000000000000000 ∧ Regs.reset.Refuses 0x40000000000000005 ∧
    locatedA.Refuses 0x4000000000000012C ∧ Regs.reset.Refuses 0x50000000000000100 ∧
    Regs.reset.Refuses 0x50000000000000013 ∧ Regs.reset.Refuses 0x5000000000000003F ∧
    Regs.reset.Refuses 0x5000000000000007F ∧
    (issued Regs.reset 0x5000000000000007F).inputs = .command 0x5000000000000007F :: [] ∧
    (0x5000000000000007F : CmdWord).extractLsb' 64 4 = 5#4 ∧
    (¬ PortInput.Resets (.command 0x30000000000000000) ∧ { loadedA with perr := true }.perr = true ∧
      next? (step (issued { loadedA with perr := true } 0x30000000000000000)) =
        some (idle { decodedA with perr := true })) := by
  and_intros <;> (try dsimp only [Regs.Refuses, PortInput.Resets]) <;> decide

theorem witness_PerrIsSetByRefusalsAndClearedOnlyByReset :
    (issued { loadedA with perr := true } 0x10000000000000000).inputs = .command 0x10000000000000000 :: [] ∧
    { loadedA with perr := true }.hcnt.toNat ≤ 128 ∧
    next? (step (issued { loadedA with perr := true } 0x10000000000000000)) = some State.reset ∧
    PortInput.Resets (.command 0x10000000000000000) := by
  unfold PortInput.Resets
  decide

theorem witness_OnlyReadCommandsDriveTheResponsePort :
    (issued loadedA 0x50000000000000000).inputs = .command 0x50000000000000000 :: [] ∧
    next? (step (issued loadedA 0x50000000000000000)) =
      some { regs := loadedA, inputs := [], response := some 0 } := by decide

theorem witness_RdRespondsWithTheNumberedRegister :
    loadedA.ph = .load ∧ decodedA.ph = .hdr ∧ locatedA.ph = .done ∧ { loadedA with ph := .fail }.ph = .fail ∧
    (0x13 ≤ (0x13 : Byte).toNat ∧ (0x13 : Byte).toNat ≤ 0x3F) ∧
    (0x13 ≤ (0x3F : Byte).toNat ∧ (0x3F : Byte).toNat ≤ 0x3F) ∧ (0x7F : Byte) = 0x7F := by decide

/-- At both ends of the buffer and at both sides of the end of the checksummed span. -/
theorem witness_LdbStoresAndFoldsTheNextByte :
    ∀ i ∈ ([0, 123, 124, 127] : List HAddr),
      { Regs.reset with hcnt := BitVec.ofNat 8 i.val }.ph = .load ∧
      { Regs.reset with hcnt := BitVec.ofNat 8 i.val }.hcnt.toNat = i.val ∧ Regs.reset.hbuf.wf = true := by decide

theorem witness_LoadedBytesStandInOrderAndAreChecksummed :
    ([] : List Byte).length ≤ 128 ∧ (List.replicate 128 (0x41 : Byte)).length ≤ 128 := by
  simp

theorem witness_DecOfAValidHeaderWritesTheRecord :
    loadedA.ph = .load ∧ 128 ≤ loadedA.hcnt.toNat ∧ loadedA.hbuf.read 0x00 = 0 ∧
    1 ≤ (loadedA.hbuf.read 0x01).toNat ∧ (loadedA.hbuf.read 0x01).toNat ≤ 63 ∧
    (loadedA.hbuf.read 0x7B).toNat ≤ loadedA.maxver.toNat ∧
    loadedA.crc = loadedA.hbuf.read 0x7C ++ loadedA.hbuf.read 0x7D := by decide

/-- One state for each clause, at the first value that fails: 127 bytes; marker 1; name lengths 0 and 64; version 0x82;
a checksum that differs in one bit. -/
theorem witness_DecRaisesTheFirstErrorThatApplies :
    { loadedA with hcnt := 127 }.hcnt.toNat < 128 ∧
    Memory.read [(0x00, 0x01)] 0x00 ≠ 0 ∧
    (Memory.read [] 0x00 = 0 ∧ (Memory.read [] 0x01).toNat = 0) ∧
    (Memory.read [(0x01, 0x40)] 0x00 = 0 ∧ 63 < (Memory.read [(0x01, 0x40)] 0x01).toNat) ∧
    (1 ≤ (Memory.read [(0x01, 0x3F), (0x7B, 0x82)] 0x01).toNat ∧
      (Memory.read [(0x01, 0x3F), (0x7B, 0x82)] 0x01).toNat ≤ 63 ∧
      loadedA.maxver.toNat < (Memory.read [(0x01, 0x3F), (0x7B, 0x82)] 0x7B).toNat) ∧
    ((loadedA.hbuf.read 0x7B).toNat ≤ loadedA.maxver.toNat ∧ 128 ≤ loadedA.hcnt.toNat ∧ loadedA.ph = .load ∧
      (0xEA19 : CrcWord) ≠ loadedA.hbuf.read 0x7C ++ loadedA.hbuf.read 0x7D) := by decide

theorem witness_DecAgreesWithTheFunctionDecode : loadedA.Inv ∧ loadedA.ph = .load ∧ loadedA.hcnt = 128 :=
  ⟨witness_inv_loadedA, by decide, by decide⟩

theorem witness_HeaderThatHoldsFieldsDecodesToThem :
    HeaderHolds cellsA.read [0x54, 0x45, 0x53, 0x54] 0x54455854 64 0 0 0 0x81 ∧
    1 ≤ ([0x54, 0x45, 0x53, 0x54] : List Byte).length ∧ (List.replicate 63 (0x41 : Byte)).length ≤ 63 ∧
    (0x81 : Byte).toNat ≤ 0x81 ∧ UnlistedByte 4 0x06 ∧ UnlistedByte 4 0x40 ∧ UnlistedByte 4 0x7F := by
  refine ⟨⟨?_, ?_, ?_, ?_, ?_, ?_, ?_, ?_, ?_, ?_⟩, ?_, ?_, ?_, ?_, ?_, ?_⟩
  all_goals first
    | (rw [test_spanA_is_header_A, test_checksum_of_header_A]; decide)
    | (unfold UnlistedByte; decide)
    | decide

/-- Header A with bit 0 of byte 0x56 flipped. -/
def flippedA : Header := fun x => if x = 0x56 then cellsA.read 0x56 ^^^ BitVec.twoPow 8 0 else cellsA.read x

/-- A flip that leaves steps 1 to 3 passing, and both ends of the flipped range. -/
theorem witness_AnySingleBitFlipOfAValidHeaderIsRejected :
    (∃ record, decodeHeader cellsA.read = .ok record) ∧ (0 : HAddr).val < 126 ∧ (125 : HAddr).val < 126 ∧
    (flippedA 0x00 = 0 ∧ 1 ≤ (flippedA 0x01).toNat ∧ (flippedA 0x01).toNat ≤ 63 ∧ (flippedA 0x7B).toNat ≤ 0x81) :=
  ⟨⟨_, test_decodeHeader_header_A⟩, by decide, by decide, by decide⟩

theorem witness_LastTwoHeaderBytesDoNotMatter :
    (∀ a : HAddr, a.val < 126 → cellsA.read a = (cellsA.write 126 0xDE).read a) ∧
    cellsA.read 126 ≠ (cellsA.write 126 0xDE).read 126 := by decide

theorem witness_HeaderFieldsAreBigEndian :
    (126 : Nat) + 2 ≤ 128 ∧ (124 : Nat) + 4 ≤ 128 ∧ be4 cellsA.read 0x41 = 0x54455854 := by decide

theorem witness_BitReversalReversesBitsOfAnyWidth :
    (0 : Nat) < 1 ∧ (31 : Nat) < 32 ∧ (bitrev 1#32).getLsbD 31 = true := by decide

theorem witness_ByteSwapReversesBytes :
    (0 : Nat) < 1 ∧ (2 : Nat) < 3 ∧ (7 : Nat) < 8 ∧ (byteswap (w := 8 * 3) 0x80#24).getLsbD (8 * 2 + 7) = true := by
  decide

/-- Width 8 with an even polynomial, width 16 with polynomial 0, the last bit of the last byte. -/
theorem witness_ChecksumChangesWithEverySingleBitFlip :
    8 ≤ (8 : Nat) ∧ (16 : Nat) % 8 = 0 ∧ (0x02#8 : BitVec 8) ≠ 0 ∧ ({ xmodem with polynomial := 0 }).polynomial = 0 ∧
    (1 : Nat) < ([0x31, 0x32] : List Byte).length ∧ (7 : Nat) < 8 ∧
    ([0x31] : List Byte).length = ([0xFF] : List Byte).length := by decide

theorem witness_InstanceIsLinearOverXor :
    ([0x01, 0x02] : List Byte).length = ([0x09, 0x08] : List Byte).length := by decide

theorem witness_PadReachesTheNextMultipleOf128 : 128 ∣ 128 ∧ (1 : Nat) ≤ 128 ∧ (128 : Nat) ≤ 128 := by decide

/-- Header B's lengths: 773 is the smallest file that holds every segment; each segment just fails to fit at 555, 767
and 772 (95_test_vectors.md section 4.1). -/
theorem witness_LocOfFittingSegmentsWritesTheLayout :
    decodedA.ph = .hdr ∧ dataBase 1 + 300 ≤ 773 ∧ resBase 1 300 + 128 ≤ 773 ∧ commentBase 1 300 128 + 5 ≤ 773 := by
  decide

theorem witness_LocRaisesTooSmallAtTheFirstSegmentThatDoesNotFit :
    decodedA.ph = .hdr ∧ 0 < 300 ∧ 555 < dataBase 1 + 300 ∧
    (dataBase 1 + 300 ≤ 767 ∧ 0 < 128 ∧ 767 < resBase 1 300 + 128) ∧
    (dataBase 1 + 300 ≤ 772 ∧ resBase 1 300 + 128 ≤ 772 ∧ 0 < 5 ∧ 772 < commentBase 1 300 128 + 5) := by decide

theorem witness_LocAgreesWithTheFunctionLocate : decodedA.Inv ∧ decodedA.ph = .hdr :=
  ⟨witness_inv_decodedA, by decide⟩

theorem witness_LocatedSegmentsAreAlignedAndInsideTheFile : locatedA.Sound ∧ locatedA.ph = .done :=
  ⟨witness_sound_locatedA, by decide⟩

theorem witness_PhaseMovesOnlyAsTheTableSays :
    ({ loadedA with hcnt := 127 }.ph = .load ∧ { loadedA with hcnt := 127 }.hcnt.toNat < 128) ∧
    128 ≤ loadedA.hcnt.toNat ∧ loadedA.ph ≠ .hdr ∧ decodedA.ph = .hdr ∧ decodedA.ph ≠ .load := by decide

theorem witness_StatusIsWrittenOncePerPass :
    (issued loadedA 0x30000000000000000).inputs = .command 0x30000000000000000 :: [] ∧
    ¬ PortInput.Resets (.command 0x30000000000000000) ∧
    next? (step (issued { loadedA with crc := 0xEA19 } 0x30000000000000000)) =
      some (idle { loadedA with crc := 0xEA19, status := 6, ph := .fail, verseen := 0x81, crcst := 0xEA18 }) ∧
    { loadedA with status := 6, ph := .fail }.ph = .fail ∧ locatedA.ph = .done := by
  unfold PortInput.Resets
  decide

/-- A step that changes a byte of the buffer, and a step in a phase after LOAD. -/
theorem witness_HeaderAndRecordAreFrozenAfterLoading :
    ¬ PortInput.Resets (.command 0x20000000000000031) ∧
    next? (step (issued Regs.reset 0x20000000000000031)) =
      some (idle { Regs.reset with hbuf := [(0, 0x31)], hcnt := 1, crc := 0x2672 }) ∧
    Memory.read [(0, 0x31)] 0 ≠ Regs.reset.hbuf.read 0 ∧
    decodedA.ph ≠ .load ∧ next? (step (issued decodedA 0x40000000000000100)) = some (idle locatedA) := by
  unfold PortInput.Resets
  decide

theorem witness_PerrInfluencesNothingElse : Instr.rd .crc ≠ .rd .perr := by decide

theorem witness_StepKeepsTheBufferCanonical :
    Regs.reset.hbuf.wf = true ∧ next? (step (issued Regs.reset 0x20000000000000031)) =
      some (idle { Regs.reset with hbuf := [(0, 0x31)], hcnt := 1, crc := 0x2672 }) := by decide

theorem witness_StepKeepsTheInvariants :
    loadedA.hbuf.wf = true ∧ loadedA.Inv ∧ next? (step (issued loadedA 0x30000000000000000)) = some (idle decodedA) :=
  ⟨by decide, witness_inv_loadedA, by decide⟩

theorem witness_StepKeepsTheRegistersTrueToTheHeader :
    locatedA.Sound ∧ next? (step (idle locatedA)) = some (idle locatedA) :=
  ⟨witness_sound_locatedA, by decide⟩

/-- A reachable state other than the one after reset. -/
theorem witness_ReachableStatesHaveTheInvariants :
    Reachable (idle { Regs.reset with hbuf := [(0, 0x31)], hcnt := 1, crc := 0x2672 }) :=
  .step (s := issued Regs.reset 0x20000000000000031)
    (.give (s := State.reset) (.command 0x20000000000000031) .reset) (by
      have h : next? (step (issued Regs.reset 0x20000000000000031)) =
          some (idle { Regs.reset with hbuf := [(0, 0x31)], hcnt := 1, crc := 0x2672 }) := by decide
      revert h
      cases step (issued Regs.reset 0x20000000000000031) with
      | next t => exact fun h => congrArg _ (Option.some.inj h)
      | fault r => exact fun h => nomatch h
      | refused r => exact fun h => nomatch h)

end Sys2Proof.Tests
end

section
/-! SUPPORT. What one step does to the registers, said once: an accepted command's effect or a refusal, which words
are refused, and the induction principles that every invariant of the registers goes through. -/

namespace Sys2Proof.Proofs

open Sys2Proof.Machine Sys2Proof.Laws

/-- The condition under which a legal command is refused (43_control_commands.md R182 (c), (d)). -/
def Rejects (r : Regs) : Instr → Prop
  | .rst => False
  | .ldb _ => r.ph ≠ .load ∨ 128 ≤ r.hcnt.toNat
  | .dec => r.ph ≠ .load
  | .loc _ => r.ph ≠ .hdr
  | .rd x => r.value x = none

/-- The effect of an accepted command on the registers, one constructor per command. -/
inductive Accepts (r : Regs) : Instr → Regs → Prop where
  | rst : Accepts r .rst Regs.reset
  | ldb (i : HAddr) (b : Byte) (hph : r.ph = .load) (hcnt : r.hcnt.toNat = i.val) : Accepts r (.ldb b) (r.loadByte i b)
  | dec (hph : r.ph = .load) : Accepts r .dec r.decode
  | loc (n : Offset) (hph : r.ph = .hdr) : Accepts r (.loc n) (r.locate n)
  | rd (x : Reg) (v : Rsp) (hv : r.value x = some v) : Accepts r (.rd x) r

theorem Accepts.not_rejects {r r' : Regs} {i : Instr} (h : Accepts r i r') : ¬ Rejects r i := by
  cases h with
  | rst => exact id
  | ldb i b hph hcnt => simp [Rejects, hph, hcnt]
  | dec hph => exact not_not.mpr hph
  | loc n hph => exact not_not.mpr hph
  | rd x v hv => simp [Rejects, hv]

/-- A command is accepted with its effect, or sets PERR and no other register. -/
theorem exec_regs_cases {i : Instr} {s t : State} (h : exec i s = .next t) :
    Accepts s.regs i t.regs ∨ (Rejects s.regs i ∧ t.regs = s.regs.refuse) := by
  have eq_of {u : State} (e : exec i s = .next u) : t = u := Host.Outcome.next.inj (h.symm.trans e)
  cases i with
  | rst => exact .inl (eq_of rfl ▸ .rst)
  | ldb b =>
    rcases execLdb_cases b s with ⟨a, hph, hcnt, e⟩ | ⟨hrej, e⟩
    · exact .inl (eq_of e ▸ .ldb a b hph hcnt)
    · exact .inr ⟨hrej, eq_of e ▸ rfl⟩
  | dec =>
    rcases execDec_cases s with ⟨hph, e⟩ | ⟨hrej, e⟩
    · exact .inl (eq_of e ▸ .dec hph)
    · exact .inr ⟨hrej, eq_of e ▸ rfl⟩
  | loc n =>
    rcases execLoc_cases n s with ⟨hph, e⟩ | ⟨hrej, e⟩
    · exact .inl (eq_of e ▸ .loc n hph)
    · exact .inr ⟨hrej, eq_of e ▸ rfl⟩
  | rd x =>
    rcases execRd_cases x s with ⟨v, hv, e⟩ | ⟨hrej, e⟩
    · exact .inl (eq_of e ▸ .rd x v hv)
    · exact .inr ⟨hrej, eq_of e ▸ rfl⟩

/-- A predicate of the registers that holds at reset, and that refusals and accepted commands keep, is kept by every
step. -/
theorem step_keeps {P : Regs → Prop} (hreset : P Regs.reset) (hrefuse : ∀ r, P r → P r.refuse)
    (haccept : ∀ r i r', P r → Accepts r i r' → P r') {s t : State} (h : step s = .next t) (hs : P s.regs) :
    P t.regs := by
  rcases step_cases h with ⟨-, rfl⟩ | ⟨rest, -, rfl⟩ | ⟨w, rest, i, -, -, he⟩ | ⟨w, rest, e, -, -, rfl⟩
  · exact hs
  · exact hreset
  · rcases exec_regs_cases he with ha | ⟨-, hr⟩
    · exact haccept _ i _ hs ha
    · exact hr ▸ hrefuse _ hs
  · exact refuseWord_eq _ e ▸ hrefuse _ hs

/-- A predicate of the registers that holds at reset and that every step keeps holds of every reachable state. -/
theorem reachable_induction {P : Regs → Prop} (hreset : P Regs.reset)
    (hstep : ∀ s t : State, P s.regs → step s = .next t → P t.regs) {s : State} (h : Reachable s) : P s.regs := by
  induction h with
  | reset => exact hreset
  | give i _ ih => exact ih
  | step _ h ih => exact hstep _ _ ih h

/-! Which words are refused. -/

/-- A register of the table has no value exactly when its number is an unassigned one (30_encoding.md R100). -/
theorem value_eq_none_iff (r : Regs) {x : Reg} (hx : x.wf = true) :
    r.value x = none ↔ unassignedNumber x.number = true := by
  cases x with
  | unassigned n => exact iff_of_true rfl hx
  | name i => exact iff_of_false (Option.some_ne_none _) (by revert i; decide)
  | hbuf i => exact iff_of_false (Option.some_ne_none _) (by revert i; decide)
  | _ => exact iff_of_false (Option.some_ne_none _) (by decide)

theorem rejects_rd_decodeReg (r : Regs) (n : Byte) :
    Rejects r (.rd (decodeReg n)) ↔ (0x13 ≤ n.toNat ∧ n.toNat ≤ 0x3F) ∨ n.toNat = 0x7F := by
  rw [Rejects, value_eq_none_iff r (wf_decodeReg n), number_decodeReg]
  simp [unassignedNumber]

theorem argLow_toNat (w : CmdWord) : (argLow w).toNat = w.toNat % 256 := by
  simp [argLow]

/-! R182 read off the operation number of the word. -/

section refuses

variable (r : Regs) {w : CmdWord}

theorem refuses_rst (ho : (opField w).toNat = 1) : r.Refuses w ↔ argField w ≠ 0 := by
  rw [Regs.Refuses, ← opField, ← argField]
  simp [ho]

theorem refuses_ldb (ho : (opField w).toNat = 2) :
    r.Refuses w ↔ argHigh w ≠ 0 ∨ r.ph ≠ .load ∨ r.hcnt = 128 := by
  rw [Regs.Refuses, ← opField, ← argHigh]
  simp [ho]

theorem refuses_dec (ho : (opField w).toNat = 3) : r.Refuses w ↔ argField w ≠ 0 ∨ r.ph ≠ .load := by
  rw [Regs.Refuses, ← opField, ← argField]
  simp [ho]

theorem refuses_loc (ho : (opField w).toNat = 4) : r.Refuses w ↔ r.ph ≠ .hdr := by
  rw [Regs.Refuses, ← opField]
  simp [ho]

theorem refuses_rd (ho : (opField w).toNat = 5) :
    r.Refuses w ↔ argHigh w ≠ 0 ∨ Rejects r (.rd (decodeReg (argLow w))) := by
  rw [Regs.Refuses, ← opField, ← argHigh, rejects_rd_decodeReg, argLow_toNat]
  simp [ho]

theorem refuses_reservedOp (ho : (opField w).toNat = 0 ∨ 6 ≤ (opField w).toNat) : r.Refuses w :=
  ho.elim .inl fun h => .inr (.inl h)

end refuses

theorem hcnt_eq_128_iff {r : Regs} (hc : r.hcnt.toNat ≤ 128) : r.hcnt = 128 ↔ 128 ≤ r.hcnt.toNat := by
  rw [← BitVec.toNat_inj]
  exact ⟨fun h => h.ge, fun h => hc.antisymm h⟩

/-- A word is refused exactly when it is illegal or its command is rejected. -/
theorem refuses_iff {r : Regs} (hc : r.hcnt.toNat ≤ 128) (w : CmdWord) :
    r.Refuses w ↔ ∀ i, decodeWord w = .ok i → Rejects r i := by
  have illegal {e : IllegalWord} (hw : decodeWord w = .error e) (href : r.Refuses w) :
      r.Refuses w ↔ ∀ i, decodeWord w = .ok i → Rejects r i :=
    iff_of_true href fun _ hi => nomatch hw.symm.trans hi
  rcases decodeWord_cases w with ⟨ho, ha, hw⟩ | ⟨ho, ha, hw⟩ | ⟨ho, ha, hw⟩ | ⟨ho, ha, hw⟩ | ⟨ho, ha, hw⟩ |
    ⟨ho, ha, hw⟩ | ⟨ho, hw⟩ | ⟨ho, ha, hw⟩ | ⟨ho, ha, hw⟩ | ⟨ho, hw⟩
  · simp [refuses_rst r ho, ha, hw, Rejects]
  · exact illegal hw ((refuses_rst r ho).mpr ha)
  · simp [refuses_ldb r ho, ha, hw, Rejects, ← hcnt_eq_128_iff hc]
  · exact illegal hw ((refuses_ldb r ho).mpr (.inl ha))
  · simp [refuses_dec r ho, ha, hw, Rejects]
  · exact illegal hw ((refuses_dec r ho).mpr (.inl ha))
  · simp [refuses_loc r ho, hw, Rejects]
  · simp [refuses_rd r ho, ha, hw]
  · exact illegal hw ((refuses_rd r ho).mpr (.inl ha))
  · exact illegal hw (refuses_reservedOp r ho)

/-- Only one word is that of RST (30_encoding.md R97). -/
theorem decodeWord_eq_rst_iff (w : CmdWord) : decodeWord w = .ok .rst ↔ w = encode .rst := by
  refine ⟨fun h => ?_, fun h => h ▸ by decide⟩
  rcases decodeWord_cases w with ⟨ho, ha, -⟩ | ⟨-, -, hw⟩ | ⟨-, -, hw⟩ | ⟨-, -, hw⟩ | ⟨-, -, hw⟩ | ⟨-, -, hw⟩ |
    ⟨-, hw⟩ | ⟨-, -, hw⟩ | ⟨-, -, hw⟩ | ⟨-, hw⟩
  case inl => rw [← append_fields w, ha, BitVec.eq_of_toNat_eq (y := 1#4) ho]; rfl
  all_goals simp [hw] at h

theorem resets_command_iff (w : CmdWord) : PortInput.Resets (.command w) ↔ decodeWord w = .ok .rst := by
  simp [PortInput.Resets, decodeWord_eq_rst_iff]

end Sys2Proof.Proofs
end

section
/-! SUPPORT. The frames of DEC and LOC, and the invariants of 10_state.md R46: what reset, a refusal, and each accepted
command does to them. -/

namespace Sys2Proof.Proofs

open Sys2Proof.Machine Sys2Proof.Laws

/-! What DEC and LOC leave alone. -/

theorem decode_frame (r : Regs) : r.decode.hbuf = r.hbuf ∧ r.decode.perr = r.perr := by
  rcases decode_cases r with ⟨-, e⟩ | ⟨-, -, e⟩ | ⟨-, -, -, -, -, e⟩ | ⟨-, -, -, -, -, -, e⟩ |
    ⟨-, -, -, -, -, -, e⟩ <;> simp [e]

@[simp] theorem decode_hbuf (r : Regs) : r.decode.hbuf = r.hbuf := (decode_frame r).1
@[simp] theorem decode_perr (r : Regs) : r.decode.perr = r.perr := (decode_frame r).2

theorem locate_frame (r : Regs) (n : Offset) :
    (r.locate n).hbuf = r.hbuf ∧ (r.locate n).perr = r.perr := by
  rcases locate_cases r n with ⟨-, -, e⟩ | ⟨-, -, -, e⟩ | ⟨-, -, -, -, e⟩ | ⟨-, -, -, e⟩ <;> simp [e]

@[simp] theorem locate_hbuf (r : Regs) (n : Offset) : (r.locate n).hbuf = r.hbuf := (locate_frame r n).1
@[simp] theorem locate_perr (r : Regs) (n : Offset) : (r.locate n).perr = r.perr := (locate_frame r n).2

theorem Accepts.wf {r r' : Regs} {i : Instr} (h : Accepts r i r') (hr : r.hbuf.wf = true) : r'.hbuf.wf = true := by
  cases h with
  | rst => exact wf_empty
  | ldb a b => exact wf_write hr a b
  | dec => simpa using hr
  | loc n => simpa using hr
  | rd => exact hr

/-- Accepted commands leave PERR alone, but for RST. -/
theorem Accepts.perr {r r' : Regs} {i : Instr} (h : Accepts r i r') :
    r'.perr = true ↔ r.perr = true ∧ i ≠ .rst := by
  cases h with
  | rst => simp [Regs.reset]
  | _ => simp

/-! The invariants. -/

theorem inv_reset : Regs.reset.Inv where
  count := by decide
  unloaded := fun a _ => read_empty a
  running := x16_nil.symm
  statusFail := by decide
  statusCode := by decide
  noRecord := by decide
  record := by decide
  notDecoded := by decide
  maximum := by decide
  notLocated := by decide

/-- PERR is in none of the invariants. -/
theorem inv_refuse {r : Regs} (h : r.Inv) : r.refuse.Inv := { h with }

theorem running_loadByte {r : Regs} (h : r.Inv) (hwf : r.hbuf.wf = true) {i : HAddr} (hcnt : r.hcnt.toNat = i.val)
    (b : Byte) :
    (r.loadByte i b).crc = x16 ((headerBytes (r.loadByte i b).hbuf.read).take (min (i.val + 1) 124)) := by
  have hrun := h.running
  rw [hcnt] at hrun
  rw [loadByte_crc, loadByte_hbuf]
  by_cases hi : i.val < 124
  · rw [if_pos hi, hrun, min_eq_left (by omega), min_eq_left (by omega), take_succ_headerBytes,
      take_headerBytes_write _ _ _ le_rfl, read_write_same hwf, x16_concat]
  · rw [if_neg hi, hrun, min_eq_right (by omega), min_eq_right (by omega), take_headerBytes_write _ _ _ (by omega)]

theorem inv_loadByte {r : Regs} (h : r.Inv) (hwf : r.hbuf.wf = true) (hph : r.ph = .load) {i : HAddr}
    (hcnt : r.hcnt.toNat = i.val) (b : Byte) : (r.loadByte i b).Inv := by
  have hlt := i.isLt
  have hcnt' : (r.loadByte i b).hcnt.toNat = i.val + 1 := by
    rw [loadByte_hcnt, BitVec.toNat_add, hcnt]
    exact Nat.mod_eq_of_lt (show i.val + 1 < 256 by omega)
  exact {
    count := by omega
    unloaded := fun a ha => by
      rw [loadByte_hbuf, read_write_other _ (fun e => by subst e; omega)]
      exact h.unloaded a (by omega)
    running := hcnt' ▸ running_loadByte h hwf hcnt b
    statusFail := h.statusFail
    statusCode := h.statusCode
    noRecord := fun _ => h.noRecord (.inl hph)
    record := fun hd => by simp [Regs.Decoded, Regs.FailedInLoc, hph] at hd
    notDecoded := h.notDecoded
    maximum := h.maximum
    notLocated := h.notLocated }

/-- A failure of DEC: it has written at most VERSEEN and CRCST, and code 3 only with fewer than 128 bytes loaded. -/
theorem inv_raise_of_load {r : Regs} (h : r.Inv) (hph : r.ph = .load) (v : Byte) (c : CrcWord) {e : TaxonomyError}
    (hcode : config.errCode e = 3 ∧ r.hcnt.toNat < 128 ∨ config.errCode e = 4 ∨ config.errCode e = 5 ∨
      config.errCode e = 6) :
    ({ r with verseen := v, crcst := c }.raise e).Inv where
  count := h.count
  unloaded := h.unloaded
  running := h.running
  statusFail := iff_of_false (errCode_ne_zero e) (not_not.mpr rfl)
  statusCode := .inr (hcode.imp_left And.left)
  noRecord := fun _ => h.noRecord (.inl hph)
  record := fun hd => by
    obtain ⟨-, hs, hc⟩ : Regs.FailedInLoc _ := by simpa [Regs.Decoded] using hd
    simp only [raise_status, raise_hcnt] at hs hc
    simp [hs, hc] at hcode
  notDecoded := by simp
  maximum := h.maximum
  notLocated := by simp

theorem inv_decode {r : Regs} (h : r.Inv) (hph : r.ph = .load) : r.decode.Inv := by
  have hmax : r.maxver.toNat = 0x81 := congrArg BitVec.toNat h.maximum
  rcases decode_cases r with ⟨hlt, e⟩ | ⟨-, -, e⟩ | ⟨-, -, -, -, -, e⟩ | ⟨-, -, -, -, -, -, e⟩ |
    ⟨hc, h0, hl, hu, hv, hcrc, e⟩
  · exact e ▸ inv_raise_of_load h hph r.verseen r.crcst (.inl ⟨rfl, hlt⟩)
  · exact e ▸ inv_raise_of_load h hph r.verseen r.crcst (.inr (.inl rfl))
  · exact e ▸ inv_raise_of_load h hph _ r.crcst (.inr (.inr (.inl rfl)))
  · exact e ▸ inv_raise_of_load h hph _ _ (.inr (.inr (.inr rfl)))
  · have hstatus : r.status = 0 := h.statusFail.mpr (by simp [hph])
    rw [e]
    exact {
      count := h.count
      unloaded := h.unloaded
      running := h.running
      statusFail := by simp [hstatus]
      statusCode := .inl hstatus
      noRecord := by simp [Regs.FailedInDec]
      record := fun _ => ⟨(hcnt_eq_128_iff h.count).mpr hc, hl, hu, h0, hmax ▸ hv, hcrc⟩
      notDecoded := by simp
      maximum := h.maximum
      notLocated := fun _ => (h.noRecord (.inl hph)).2 }

/-- A failure of LOC: it keeps the record (log 22), whatever part of the layout it has written. -/
theorem inv_raise_of_hdr {r : Regs} (h : r.Inv) (hph : r.ph = .hdr) (fsize doff roff coff : Offset) (pres : BitVec 3) :
    ({ r with fsize := fsize, pres := pres, doff := doff, roff := roff, coff := coff }.raise .tooSmall).Inv where
  count := h.count
  unloaded := h.unloaded
  running := h.running
  statusFail := by simp
  statusCode := .inr (.inl rfl)
  noRecord := by
    rintro (hl | ⟨-, hlt⟩)
    · simp at hl
    · simp [(h.record (.inl hph)).1] at hlt
  record := fun _ => h.record (.inl hph)
  notDecoded := by simp
  maximum := h.maximum
  notLocated := by simp

theorem inv_done_of_hdr {r : Regs} (h : r.Inv) (hph : r.ph = .hdr) (fsize doff roff coff : Offset) (pres : BitVec 3) :
    { r with fsize := fsize, pres := pres, doff := doff, roff := roff, coff := coff, ph := .done }.Inv where
  count := h.count
  unloaded := h.unloaded
  running := h.running
  statusFail := by simpa [hph] using h.statusFail
  statusCode := h.statusCode
  noRecord := by simp [Regs.FailedInDec]
  record := fun _ => h.record (.inl hph)
  notDecoded := by simp
  maximum := h.maximum
  notLocated := by simp

theorem inv_locate {r : Regs} (h : r.Inv) (hph : r.ph = .hdr) (n : Offset) : (r.locate n).Inv := by
  rcases locate_cases r n with ⟨-, -, e⟩ | ⟨-, -, -, e⟩ | ⟨-, -, -, -, e⟩ | ⟨-, -, -, e⟩
  · exact e ▸ inv_raise_of_hdr h hph _ _ r.roff r.coff r.pres
  · exact e ▸ inv_raise_of_hdr h hph _ _ _ r.coff _
  · exact e ▸ inv_raise_of_hdr h hph _ _ _ _ _
  · exact e ▸ inv_done_of_hdr h hph _ _ _ _ _

theorem Accepts.inv {r r' : Regs} {i : Instr} (ha : Accepts r i r') (hwf : r.hbuf.wf = true) (h : r.Inv) : r'.Inv := by
  cases ha with
  | rst => exact inv_reset
  | ldb a b hph hcnt => exact inv_loadByte h hwf hph hcnt b
  | dec hph => exact inv_decode h hph
  | loc n hph => exact inv_locate h hph n
  | rd => exact h

theorem step_keeps_wf {s t : State} (h : step s = .next t) (hwf : s.regs.hbuf.wf = true) : t.regs.hbuf.wf = true :=
  step_keeps (P := fun r => r.hbuf.wf = true) wf_empty (fun _ hr => hr) (fun _ _ _ hr ha => ha.wf hr) h hwf

theorem step_keeps_wf_and_inv {s t : State} (h : step s = .next t) (hs : s.regs.hbuf.wf = true ∧ s.regs.Inv) :
    t.regs.hbuf.wf = true ∧ t.regs.Inv :=
  step_keeps (P := fun r => r.hbuf.wf = true ∧ r.Inv) ⟨wf_empty, inv_reset⟩ (fun _ hr => ⟨hr.1, inv_refuse hr.2⟩)
    (fun _ _ _ hr ha => ⟨ha.wf hr.1, ha.inv hr.1 hr.2⟩) h hs

theorem faithful_reset : Regs.reset.Faithful where
  record := fun h => absurd h (by decide)
  layout := fun h => absurd h (by decide)
  layoutPart := fun h => absurd h (by decide)
  failure := fun h => absurd h (by decide)

/-! The layout of a successful LOC. -/

/-- The padding in closed form (42_segment_locator.md R160; log 6). -/
theorem pad_eq (s : Nat) : pad s = (128 - s % 128) % 128 := by
  unfold pad
  split_ifs with h0 h1
  · simp [h0]
  · rw [config_block] at h1 ⊢
    omega
  · rw [config_block] at h1
    rw [config_padWhenAligned]
    omega

/-- A region and its padding end at a multiple of 128. -/
theorem dvd_add_pad (s : Nat) : 128 ∣ s + pad s := by
  rw [pad_eq]
  omega

theorem dvd_baseAfter {base : Nat} (h : 128 ∣ base) (len : Nat) : 128 ∣ baseAfter base len := by
  rw [baseAfter, Nat.add_assoc]
  exact h.add (dvd_add_pad len)

theorem dvd_dataBase (sh : Nat) : 128 ∣ dataBase sh := dvd_baseAfter (by decide) sh

theorem dvd_resBase (sh d : Nat) : 128 ∣ resBase sh d := dvd_baseAfter (dvd_dataBase sh) d

theorem dvd_commentBase (sh d r : Nat) : 128 ∣ commentBase sh d r := dvd_baseAfter (dvd_resBase sh d) r

/-- The PRES bits of the segments that are present (10_state.md R38). -/
def presentFlags (d r c : Nat) : BitVec 3 :=
  0 ||| (if 0 < d then Segment.data.flag else 0) ||| (if 0 < r then Segment.resource.flag else 0) |||
    if 0 < c then Segment.comment.flag else 0

theorem ite_flag_getLsbD (n : Nat) (k : Segment) (j : Nat) :
    (if 0 < n then k.flag else 0).getLsbD j = (decide (0 < n) && k.flag.getLsbD j) := by
  split_ifs with h <;> simp [h]

theorem presentFlags_getLsbD (d r c : Nat) :
    ((presentFlags d r c).getLsbD 0 = true ↔ 0 < d) ∧ ((presentFlags d r c).getLsbD 1 = true ↔ 0 < r) ∧
      ((presentFlags d r c).getLsbD 2 = true ↔ 0 < c) := by
  simp only [presentFlags, BitVec.getLsbD_or, ite_flag_getLsbD]
  simp [Segment.flag]

/-- A successful `locate` answers the bases and the flags of the present segments, and these lie in the file. -/
theorem locate_ok {sh d r c n : Nat} {l : Layout} (h : locate sh d r c n = .ok l) :
    l = ⟨dataBase sh, some (resBase sh d), some (commentBase sh d r), presentFlags d r c⟩ ∧
      Fits n (dataBase sh) d ∧ Fits n (resBase sh d) r ∧ Fits n (commentBase sh d r) c := by
  rcases locateFunction_cases sh d r c n with ⟨-, -, e⟩ | ⟨-, -, -, e⟩ | ⟨-, -, -, -, e⟩ | ⟨hd, hr, hc, e⟩
  · exact nomatch h.symm.trans e
  · exact nomatch h.symm.trans e
  · exact nomatch h.symm.trans e
  · exact ⟨Except.ok.inj (h.symm.trans e), hd, hr, hc⟩

/-- What the layout registers hold in a sound state of phase DONE. -/
theorem layout_of_done {r : Regs} (h : r.Faithful) (hph : r.ph = .done) :
    r.doff.toNat = dataBase r.shsize.toNat ∧ r.roff.toNat = resBase r.shsize.toNat r.dsize.toNat ∧
      r.coff.toNat = commentBase r.shsize.toNat r.dsize.toNat r.rsize.toNat ∧
      r.pres = presentFlags r.dsize.toNat r.rsize.toNat r.clen.toNat ∧
      Fits r.fsize.toNat r.doff.toNat r.dsize.toNat ∧ Fits r.fsize.toNat r.roff.toNat r.rsize.toNat ∧
      Fits r.fsize.toNat r.coff.toNat r.clen.toNat := by
  obtain ⟨hl, hd, hr, hc⟩ := locate_ok (h.layout hph)
  obtain ⟨ed, er, ec, ep⟩ : _ ∧ some _ = some _ ∧ some _ = some _ ∧ _ := by simpa [Regs.layoutView] using hl
  rw [Option.some_inj] at er ec
  exact ⟨ed, er, ec, ep, ed ▸ hd, er ▸ hr, ec ▸ hc⟩

end Sys2Proof.Proofs
end

section
/-! SUPPORT. The obligations of 10_state.md: each settled from the lemmas above. -/

namespace Sys2Proof.Proofs

open Sys2Proof.Machine Sys2Proof.Laws

/-- Settles O40: `step_keeps` with the canonical form beside the invariants, which LDB needs of the buffer. -/
theorem stepKeepsTheInvariants : Obligations.StepKeepsTheInvariants :=
  fun _ _ hwf hinv h => (step_keeps_wf_and_inv h ⟨hwf, hinv⟩).2

/-- Settles O39: LDB's write is the one operation that touches the buffer, and it keeps the form. -/
theorem stepKeepsTheBufferCanonical : Obligations.StepKeepsTheBufferCanonical :=
  fun _ _ hwf h => step_keeps_wf h hwf

/-- Settles O42, by induction over the run. -/
theorem reachableStatesHaveTheInvariants : Obligations.ReachableStatesHaveTheInvariants :=
  fun _ h => (reachable_induction (P := fun r => r.hbuf.wf = true ∧ r.Inv) ⟨wf_empty, inv_reset⟩
    (fun _ _ hs hstep => step_keeps_wf_and_inv hstep hs) h).2

/-- Settles O38: the buffer is empty, and no clause of `Faithful` speaks of phase LOAD. -/
theorem resetStateIsSound : Obligations.ResetStateIsSound :=
  ⟨wf_empty, inv_reset, faithful_reset⟩

/-- Settles O8, by the cases of the step: a refused word sets PERR, an accepted one keeps it unless it is RST. -/
theorem perrIsSetByRefusalsAndClearedOnlyByReset : Obligations.PerrIsSetByRefusalsAndClearedOnlyByReset := by
  refine ⟨rfl, fun s t i rest hin hc h => ?_⟩
  rcases step_cases h with ⟨hnil, -⟩ | ⟨_, hin', rfl⟩ | ⟨w, _, j, hin', hw, he⟩ | ⟨w, _, e, hin', hw, rfl⟩
  · simp [hin] at hnil
  · obtain ⟨rfl, -⟩ := List.cons.inj (hin.symm.trans hin')
    simp [PortInput.Resets, Regs.reset]
  · obtain ⟨rfl, -⟩ := List.cons.inj (hin.symm.trans hin')
    have href : (∃ w', PortInput.command w = .command w' ∧ s.regs.Refuses w') ↔ Rejects s.regs j := by
      simp [refuses_iff hc, hw]
    rw [href, resets_command_iff, hw, Except.ok.injEq]
    rcases exec_regs_cases he with ha | ⟨hrej, hr⟩
    · exact ha.perr.trans (or_iff_right ha.not_rejects).symm
    · exact iff_of_true (hr ▸ rfl) (.inl hrej)
  · obtain ⟨rfl, -⟩ := List.cons.inj (hin.symm.trans hin')
    have href : s.regs.Refuses w := (refuses_iff hc w).mpr fun _ hi => nomatch hw.symm.trans hi
    exact iff_of_true (by rw [refuseWord_eq]; rfl) (.inl ⟨w, rfl, href⟩)

/-- Settles O33: the layout is that of a successful `locate`, whose bases are padded up to multiples of 128. -/
theorem locatedSegmentsAreAlignedAndInsideTheFile : Obligations.LocatedSegmentsAreAlignedAndInsideTheFile := by
  intro r hs hph
  obtain ⟨hdoff, hroff, hcoff, hpres, hd, hr, hc⟩ := layout_of_done hs.faithful hph
  obtain ⟨fd, fr, fc⟩ := presentFlags_getLsbD r.dsize.toNat r.rsize.toNat r.clen.toNat
  rw [← hpres] at fd fr fc
  exact ⟨hdoff ▸ dvd_dataBase _, hroff ▸ dvd_resBase _ _, hcoff ▸ dvd_commentBase _ _ _, fd, fr, fc,
    fun h => hd (fd.mp h), fun h => hr (fr.mp h), fun h => hc (fc.mp h)⟩

/-- Settles O10: the registers after RST are those of the reset state, read off one by one. -/
theorem rstPutsEveryRegisterAtItsResetValue : Obligations.RstPutsEveryRegisterAtItsResetValue := by
  intro s
  have hname (i : NameIdx) : Regs.reset.name[i] = 0 := Vector.getElem_replicate i.isLt
  exact ⟨s.setRegs Regs.reset, rfl, rfl, read_empty, rfl, rfl, rfl, rfl, rfl, rfl, rfl, rfl, rfl, hname, rfl, rfl, rfl,
    rfl, rfl, rfl, rfl, rfl, rfl, rfl⟩

end Sys2Proof.Proofs
end

section
/-! SUPPORT. The decoder as the inverse of the encoder, and a step as the run of one decoded command: what it is from
the command's side, and everything it can do when it is not a reset. -/

namespace Sys2Proof.Proofs

open Sys2Proof.Machine Sys2Proof.Laws

/-- A word whose `arg` has only its low byte set (30_encoding.md R97). -/
theorem argField_of_argHigh_eq_zero {w : CmdWord} (h : argHigh w = 0) : argField w = (argLow w).setWidth 64 := by
  ext j hj
  rcases Nat.lt_or_ge j 8 with hlow | hhigh
  · simp [argField, argLow, hlow]
  · have hbit : (argHigh w).getLsbD (j - 8) = false := by simp [h]
    simp only [argHigh, BitVec.getLsbD_extractLsb', Nat.add_sub_cancel' hhigh] at hbit
    have hbit' : w.getLsbD j = false := by simpa [show j - 8 < 56 by omega] using hbit
    simp [argField, argLow, hbit', Nat.not_lt.mpr hhigh]

theorem decodeWord_encode {i : Instr} (h : i.wf = true) : decodeWord (encode i) = .ok i := by
  cases i with
  | rst => decide
  | ldb b => simp [decodeWord, opField_encode, argHigh_encode, argLow_encode, Instr.op, Instr.arg, byte_high]
  | dec => decide
  | loc n => simp [decodeWord, opField_encode, argField_encode, Instr.op, Instr.arg]
  | rd x =>
    have hx : decodeReg x.number = x := decodeReg_number h
    simp [decodeWord, opField_encode, argHigh_encode, argLow_encode, Instr.op, Instr.arg, byte_high, hx]

theorem encode_eq_of_fields {i : Instr} {w : CmdWord} (hop : (opField w).toNat = i.op.toNat)
    (harg : argField w = i.arg) : encode i = w := by
  rw [encode, ← BitVec.eq_of_toNat_eq hop, ← harg, append_fields]

theorem encode_of_decodeWord {w : CmdWord} {i : Instr} (h : decodeWord w = .ok i) : encode i = w := by
  rcases decodeWord_cases w with ⟨ho, ha, hw⟩ | ⟨-, -, hw⟩ | ⟨ho, ha, hw⟩ | ⟨-, -, hw⟩ | ⟨ho, ha, hw⟩ | ⟨-, -, hw⟩ |
    ⟨ho, hw⟩ | ⟨ho, ha, hw⟩ | ⟨-, -, hw⟩ | ⟨-, hw⟩
  all_goals cases hw.symm.trans h
  · exact encode_eq_of_fields ho ha
  · exact encode_eq_of_fields ho (argField_of_argHigh_eq_zero ha)
  · exact encode_eq_of_fields ho ha
  · exact encode_eq_of_fields ho rfl
  · exact encode_eq_of_fields ho ((argField_of_argHigh_eq_zero ha).trans
      (congrArg (·.setWidth 64) (number_decodeReg _).symm))

/-- A step runs the command of its word in the state with that input taken. -/
theorem step_of_decodeWord {s : State} {w : CmdWord} {rest : List PortInput} {i : Instr}
    (hin : s.inputs = .command w :: rest) (hw : decodeWord w = .ok i) : step s = exec i (s.take rest) := by
  simp [step, nextInput_cons hin, hw]

theorem step_of_no_input {s : State} (hin : s.inputs = []) : step s = .next s := by
  simp [step, nextInput_nil hin]

theorem step_rst {s : State} {rest : List PortInput} (hin : s.inputs = .command (encode .rst) :: rest) :
    step s = .next ((s.take rest).setRegs Regs.reset) :=
  step_of_decodeWord hin (decodeWord_encode rfl)

/-- A step that is not a reset accepts a command other than RST, or refuses its word. -/
theorem step_cases_of_not_resets {s t : State} {i : PortInput} {rest : List PortInput}
    (hin : s.inputs = i :: rest) (hi : ¬ i.Resets) (h : step s = .next t) :
    (∃ j, j ≠ .rst ∧ i = .command (encode j) ∧ Accepts s.regs j t.regs) ∨ t.regs = s.regs.refuse := by
  rcases step_cases h with ⟨hnil, -⟩ | ⟨_, hin', -⟩ | ⟨w, _, j, hin', hw, he⟩ | ⟨w, _, e, -, -, rfl⟩
  · simp [hin] at hnil
  · obtain ⟨rfl, -⟩ := List.cons.inj (hin.symm.trans hin')
    exact absurd (.inl rfl) hi
  · obtain ⟨rfl, -⟩ := List.cons.inj (hin.symm.trans hin')
    have hj : j ≠ .rst := fun e => hi ((resets_command_iff w).mpr (e ▸ hw))
    exact (exec_regs_cases he).imp (fun ha => ⟨j, hj, by rw [encode_of_decodeWord hw], ha⟩) And.right
  · exact .inr (by rw [refuseWord_eq]; rfl)

end Sys2Proof.Proofs
end

section
/-! SUPPORT. Header bytes: their big-endian assembly, the load of a sequence of them, and which commands can change
them or the record. -/

namespace Sys2Proof.Proofs

open Sys2Proof.Machine Sys2Proof.Laws

/-- One value above another of `n` bits is the first times `2^n` plus the second. -/
theorem toNat_append_eq_add {m n : Nat} (x : BitVec m) (y : BitVec n) :
    (x ++ y).toNat = x.toNat * 2 ^ n + y.toNat := by
  rw [BitVec.toNat_append, ← Nat.shiftLeft_add_eq_or_of_lt y.isLt, Nat.shiftLeft_eq]

theorem be2_toNat (h : Header) (a : Nat) (ha : a + 2 ≤ 128) :
    (be2 h a ha).toNat = (h ⟨a, by omega⟩).toNat * 2 ^ 8 + (h ⟨a + 1, by omega⟩).toNat :=
  toNat_append_eq_add _ _

theorem be4_toNat (h : Header) (a : Nat) (ha : a + 4 ≤ 128) :
    (be4 h a ha).toNat = (h ⟨a, by omega⟩).toNat * 2 ^ 24 + (h ⟨a + 1, by omega⟩).toNat * 2 ^ 16 +
      (h ⟨a + 2, by omega⟩).toNat * 2 ^ 8 + (h ⟨a + 3, by omega⟩).toNat := by
  simp only [be4, toNat_append_eq_add]
  ring

/-! The load. -/

/-- The registers after RST and the load of `bytes`: the bytes in order and zeros after them, their checksum, their
count, and reset values elsewhere (20_memory.md R74, 10_state.md R23). -/
structure Loaded (bytes : List Byte) (r : Regs) : Prop where
  canonical : r.hbuf.wf = true
  stored : ∀ a : HAddr, r.hbuf.read a = bytes.getD a.val 0
  checksum : r.crc = x16 (bytes.take 124)
  count : r.hcnt.toNat = bytes.length
  others : r = { Regs.reset with hbuf := r.hbuf, crc := r.crc, hcnt := r.hcnt }

theorem loaded_reset : Loaded [] Regs.reset where
  canonical := wf_empty
  stored := read_empty
  checksum := x16_nil.symm
  count := rfl
  others := rfl

theorem Loaded.phase {bytes : List Byte} {r : Regs} (h : Loaded bytes r) : r.ph = .load :=
  congrArg Regs.ph h.others

theorem x16_take_concat (bytes : List Byte) (b : Byte) (n : Nat) :
    x16 ((bytes ++ [b]).take n) = if bytes.length < n then x16Byte (x16 (bytes.take n)) b else x16 (bytes.take n) := by
  split_ifs with h
  · rw [List.take_of_length_le (by simpa using h), List.take_of_length_le h.le, x16_concat]
  · rw [List.take_append_of_le_length (Nat.not_lt.mp h)]

theorem getD_concat_of_ne {bytes : List Byte} {k : Nat} (hk : k ≠ bytes.length) (b : Byte) :
    (bytes ++ [b]).getD k 0 = bytes.getD k 0 := by
  rcases Nat.lt_or_gt_of_ne hk with hlt | hgt
  · exact List.getD_append _ _ _ _ hlt
  · rw [List.getD_eq_default _ _ hgt.le, List.getD_eq_default _ _ (by simpa using hgt)]

theorem Loaded.loadByte {bytes : List Byte} {r : Regs} (h : Loaded bytes r) {i : HAddr} (hi : i.val = bytes.length)
    (b : Byte) : Loaded (bytes ++ [b]) (r.loadByte i b) where
  canonical := wf_write h.canonical i b
  stored := fun a => by
    rw [loadByte_hbuf, read_write h.canonical]
    split_ifs with ha
    · simp [ha, hi]
    · have hne : a.val ≠ bytes.length := fun e => ha (Fin.ext (e.trans hi.symm))
      rw [h.stored, getD_concat_of_ne hne]
  checksum := by rw [loadByte_crc, h.checksum, x16_take_concat, hi]
  count := by
    have hlt := i.isLt
    rw [loadByte_hcnt, BitVec.toNat_add, h.count, List.length_append]
    exact Nat.mod_eq_of_lt (show bytes.length + 1 < 256 by omega)
  others := by rw [h.others]; rfl

/-- An LDB of a byte that has room is accepted. -/
theorem Loaded.step_ldb {bytes : List Byte} {s : State} (h : Loaded bytes s.regs) (hlen : bytes.length < 128)
    {b : Byte} {rest : List PortInput} (hin : s.inputs = .command (encode (.ldb b)) :: rest) :
    step s = .next ((s.take rest).setRegs (s.regs.loadByte ⟨bytes.length, hlen⟩ b)) := by
  rw [step_of_decodeWord hin (decodeWord_encode rfl)]
  rcases execLdb_cases b (s.take rest) with ⟨i, -, hcnt, e⟩ | ⟨hrej, -⟩
  · obtain rfl : i = ⟨bytes.length, hlen⟩ := Fin.ext (hcnt.symm.trans h.count)
    exact e
  · rw [take_regs, h.count] at hrej
    exact absurd hrej (by simp [h.phase, hlen])

theorem run_succ_of_step {s u : State} (h : step s = .next u) (k : Nat) :
    Host.Core.run core (k + 1) s = Host.Core.run core k u := by
  rw [← Host.Check.core_step] at h
  simp only [Host.Core.run]
  rw [h]

/-- The inputs that load `bytes`. -/
def ldbInputs (bytes : List Byte) : List PortInput := bytes.map fun b => .command (encode (.ldb b))

/-- A run of LDBs continues the load; by induction on the bytes still to come. -/
theorem Loaded.run_ldbInputs {bytes : List Byte} {s : State} (h : Loaded bytes s.regs) (more : List Byte)
    (hlen : bytes.length + more.length ≤ 128) {rest : List PortInput} (hin : s.inputs = ldbInputs more ++ rest)
    (hresp : s.response = none) :
    ∃ t : State, Host.Core.run core more.length s = .next t ∧ Loaded (bytes ++ more) t.regs ∧ t.inputs = rest ∧
      t.response = none := by
  induction more generalizing bytes s with
  | nil => exact ⟨s, rfl, by simpa using h, hin, hresp⟩
  | cons b more ih =>
    rw [List.length_cons] at hlen
    have hroom : bytes.length < 128 := by omega
    have hlen' : (bytes ++ [b]).length + more.length ≤ 128 := by
      rw [List.length_append, List.length_singleton]
      omega
    obtain ⟨t, hrun, hload, hports⟩ := ih (h.loadByte (i := ⟨bytes.length, hroom⟩) rfl b)
      (s := (s.take (ldbInputs more ++ rest)).setRegs _) hlen' rfl rfl
    exact ⟨t, (run_succ_of_step (h.step_ldb hroom hin) _).trans hrun, by simpa using hload, hports⟩

/-! What changes the header and the record. -/

/-- The buffer, its count and checksum, and the registers DEC writes are the same. -/
def SameHeaderAndRecord (r r' : Regs) : Prop :=
  r'.hbuf = r.hbuf ∧ r'.hcnt = r.hcnt ∧ r'.crc = r.crc ∧ r'.verseen = r.verseen ∧ r'.crcst = r.crcst ∧
    r'.nlen = r.nlen ∧ r'.name = r.name ∧ r'.typeTag = r.typeTag ∧ r'.dsize = r.dsize ∧ r'.rsize = r.rsize ∧
    r'.clen = r.clen ∧ r'.shsize = r.shsize

theorem sameHeaderAndRecord_refl (r : Regs) : SameHeaderAndRecord r r := by simp [SameHeaderAndRecord]

theorem sameHeaderAndRecord_refuse (r : Regs) : SameHeaderAndRecord r r.refuse := sameHeaderAndRecord_refl r

/-- LOC writes no register of the header or the record, wherever it stops (42_segment_locator.md R168). -/
theorem sameHeaderAndRecord_locate (r : Regs) (n : Offset) : SameHeaderAndRecord r (r.locate n) := by
  rcases locate_cases r n with ⟨-, -, e⟩ | ⟨-, -, -, e⟩ | ⟨-, -, -, -, e⟩ | ⟨-, -, -, e⟩ <;>
    exact e ▸ sameHeaderAndRecord_refl r

theorem Accepts.sameHeaderAndRecord {r r' : Regs} {j : Instr} (h : Accepts r j r') (hj : j ≠ .rst)
    (hph : r.ph ≠ .load) : SameHeaderAndRecord r r' := by
  cases h with
  | rst => exact absurd rfl hj
  | ldb _ _ hload => exact absurd hload hph
  | dec hload => exact absurd hload hph
  | loc n => exact sameHeaderAndRecord_locate r n
  | rd => exact sameHeaderAndRecord_refl r

/-- The one write to the buffer is an LDB's, at the index HCNT (20_memory.md R61). -/
theorem Accepts.eq_ldb_of_read_ne {r r' : Regs} {j : Instr} (h : Accepts r j r') (hj : j ≠ .rst) {a : HAddr}
    (ha : r'.hbuf.read a ≠ r.hbuf.read a) : r.ph = .load ∧ r.hcnt.toNat = a.val ∧ ∃ b, j = .ldb b := by
  cases h with
  | rst => exact absurd rfl hj
  | ldb i b hph hcnt =>
    have hai : a = i := by
      by_contra hne
      exact ha (read_write_other r.hbuf hne b)
    exact ⟨hph, hai ▸ hcnt, b, rfl⟩
  | dec => simp at ha
  | loc n => simp at ha
  | rd => exact absurd rfl ha

end Sys2Proof.Proofs
end

section
/-! SUPPORT. The obligations of 20_memory.md: each settled from the lemmas above. -/

namespace Sys2Proof.Proofs

open Sys2Proof.Machine Sys2Proof.Laws

/-- Settles O14: RST starts a load of no bytes, which each LDB extends by one. -/
theorem loadedBytesStandInOrderAndAreChecksummed : Obligations.LoadedBytesStandInOrderAndAreChecksummed := by
  intro s bytes rest hlen
  obtain ⟨t, hrun, hload, hinputs, hresp⟩ := loaded_reset.run_ldbInputs bytes (by simpa using hlen)
    (s := (s.take (ldbInputs bytes ++ rest)).setRegs Regs.reset) rfl rfl
  exact ⟨t, (run_succ_of_step (step_rst rfl) _).trans hrun, hload.stored, hload.checksum, hload.count, hinputs, hresp,
    hload.others⟩

/-- Settles O21: the assemblies are sums by `toNat_append_eq_add`, and the fields are assemblies by definition. -/
theorem headerFieldsAreBigEndian : Obligations.HeaderFieldsAreBigEndian :=
  ⟨be2_toNat, be4_toNat, fun _ => ⟨rfl, rfl, rfl, rfl, rfl, rfl⟩⟩

/-- Settles O36, by what a step that is no reset can do: accept a command other than RST, or refuse its word. -/
theorem headerAndRecordAreFrozenAfterLoading : Obligations.HeaderAndRecordAreFrozenAfterLoading := by
  intro s t i rest hin hi h
  rcases step_cases_of_not_resets hin hi h with ⟨j, hj, rfl, ha⟩ | hr
  · refine ⟨ha.sameHeaderAndRecord hj, fun a hne => ?_⟩
    obtain ⟨hph, hcnt, b, rfl⟩ := ha.eq_ldb_of_read_ne hj hne
    exact ⟨hph, hcnt, b, rfl⟩
  · rw [hr]
    exact ⟨fun _ => sameHeaderAndRecord_refuse s.regs, fun a hne => absurd rfl hne⟩

/-- Settles O5: the two cases of a step with a legal command word and with no input. -/
theorem stepRunsTheDecodedCommand : Obligations.StepRunsTheDecodedCommand :=
  ⟨fun _ _ _ _ hin hw _ => step_of_decodeWord hin hw, fun _ hin => step_of_no_input hin⟩

end Sys2Proof.Proofs
end

section
/-! SUPPORT. A command word by its two fields, and R97's match under a mask as a statement about them. -/

namespace Sys2Proof.Proofs

open Sys2Proof.Machine Sys2Proof.Laws

theorem decodeWord_eq_ok_iff {i : Instr} (hi : i.wf = true) (w : CmdWord) :
    decodeWord w = .ok i ↔ opField w = i.op ∧ argField w = i.arg := by
  constructor
  · intro h
    rw [← encode_of_decodeWord h]
    exact ⟨opField_encode i, argField_encode i⟩
  · rintro ⟨hop, harg⟩
    rw [← encode_eq_of_fields (congrArg _ hop) harg]
    exact decodeWord_encode hi

/-- A mask with every bit of `op` set, and a match with no bit of `arg` set, as in every row of R97. -/
theorem and_opMask_eq_iff (w : CmdWord) (m : BitVec 64) (op : BitVec 4) :
    w &&& (BitVec.allOnes 4 ++ m) = op ++ 0#64 ↔ opField w = op ∧ argField w &&& m = 0 := by
  have hsplit : w &&& (BitVec.allOnes 4 ++ m) = opField w ++ (argField w &&& m) := by
    conv_lhs => rw [← append_fields w, BitVec.and_append, BitVec.and_allOnes]
  rw [hsplit]
  constructor
  · intro h
    exact ⟨(append_op _ _).symm.trans ((congrArg opField h).trans (append_op _ _)),
      (append_arg _ _).symm.trans ((congrArg argField h).trans (append_arg _ _))⟩
  · rintro ⟨rfl, h⟩
    rw [h]
    rfl

/-- `arg` is one operand byte exactly when no bit of the mask 0xFFFFFFFFFFFFFF00 is set in it: both say that
`arg[63:8]` is 0. -/
theorem argField_eq_byte_iff (w : CmdWord) :
    argField w = (argLow w).setWidth 64 ↔ argField w &&& (BitVec.allOnes 56 ++ 0#8) = 0#56 ++ 0#8 := by
  have hsplit : argField w = argHigh w ++ argLow w :=
    (BitVec.extractLsb'_append_extractLsb'_eq_extractLsb' (start₁ := 0) (len₁ := 8) (len₂ := 56) rfl).symm
  have hbyte : (argLow w).setWidth 64 = 0#56 ++ argLow w := BitVec.setWidth_eq_append (by decide)
  rw [hbyte, hsplit, BitVec.and_append, BitVec.and_allOnes, BitVec.and_zero, BitVec.append_left_inj,
    BitVec.append_left_inj]

/-- The word is the command when it gives the match under a mask that leaves out the operand's bits. -/
theorem decodeWord_eq_ok_iff_mask {i : Instr} (hi : i.wf = true) {op : BitVec 4} (hop : i.op = op) {w : CmdWord}
    {m : BitVec 64} (hm : argField w = i.arg ↔ argField w &&& m = 0) :
    decodeWord w = .ok i ↔ w &&& (BitVec.allOnes 4 ++ m) = op ++ 0#64 := by
  rw [← hop, decodeWord_eq_ok_iff hi, and_opMask_eq_iff, hm]

theorem wf_of_decodeWord {w : CmdWord} {i : Instr} (h : decodeWord w = .ok i) : i.wf = true := by
  rcases decodeWord_cases w with ⟨-, -, hw⟩ | ⟨-, -, hw⟩ | ⟨-, -, hw⟩ | ⟨-, -, hw⟩ | ⟨-, -, hw⟩ | ⟨-, -, hw⟩ |
    ⟨-, hw⟩ | ⟨-, -, hw⟩ | ⟨-, -, hw⟩ | ⟨-, hw⟩
  all_goals cases hw.symm.trans h
  · rfl
  · rfl
  · rfl
  · rfl
  · exact wf_decodeReg (argLow w)

/-! The response of a step. -/

/-- Only RD puts a value on the response port (30_encoding.md R101). -/
theorem response_isSome_iff_of_exec {i : Instr} {s t : State} (h : exec i s = .next t) (hs : s.response = none) :
    t.response.isSome = true ↔ i.op = 5#4 := by
  have eq_of {u : State} (e : exec i s = .next u) : t = u := Host.Outcome.next.inj (h.symm.trans e)
  cases i with
  | rst => simp [eq_of rfl, hs, Instr.op]
  | ldb b => rcases execLdb_cases b s with ⟨_, -, -, e⟩ | ⟨-, e⟩ <;> simp [eq_of e, hs, Instr.op]
  | dec => rcases execDec_cases s with ⟨-, e⟩ | ⟨-, e⟩ <;> simp [eq_of e, hs, Instr.op]
  | loc n => rcases execLoc_cases n s with ⟨-, e⟩ | ⟨-, e⟩ <;> simp [eq_of e, hs, Instr.op]
  | rd x => rcases execRd_cases x s with ⟨_, -, e⟩ | ⟨-, e⟩ <;> simp [eq_of e, Instr.op]

theorem eq_rdArg_iff {w : CmdWord} {e : IllegalWord} (h : decodeWord w = .error e) :
    e = .rdArg ↔ opField w = 5#4 := by
  rw [← BitVec.toNat_inj, show (5#4).toNat = 5 from rfl]
  rcases decodeWord_cases w with ⟨-, -, hw⟩ | ⟨ho, -, hw⟩ | ⟨-, -, hw⟩ | ⟨ho, -, hw⟩ | ⟨-, -, hw⟩ | ⟨ho, -, hw⟩ |
    ⟨-, hw⟩ | ⟨-, -, hw⟩ | ⟨ho, -, hw⟩ | ⟨ho, hw⟩
  all_goals cases hw.symm.trans h
  · simp [ho]
  · simp [ho]
  · simp [ho]
  · simp [ho]
  · exact iff_of_false nofun (by omega)

/-! RD. -/

theorem exec_rd_of_value {x : Reg} {s : State} {v : Rsp} (h : s.regs.value x = some v) :
    exec (.rd x) s = .next { s with response := some v } := by
  rcases execRd_cases x s with ⟨u, hu, e⟩ | ⟨hu, -⟩
  · obtain rfl : u = v := Option.some.inj (hu.symm.trans h)
    exact e
  · simp [hu] at h

theorem exec_rd_decodeReg_number {x : Reg} (hx : x.wf = true) {s : State} {v : Rsp} (h : s.regs.value x = some v) :
    exec (.rd (decodeReg x.number)) s = .next { s with response := some v } := by
  rw [decodeReg_number hx, exec_rd_of_value h]

theorem exec_rd_unassigned {n : Byte} (hn : (0x13 ≤ n.toNat ∧ n.toNat ≤ 0x3F) ∨ n = 0x7F) (s : State) :
    exec (.rd (decodeReg n)) s = .next { s with regs := { s.regs with perr := true }, response := some 0 } := by
  have hrej : Rejects s.regs (.rd (decodeReg n)) := (rejects_rd_decodeReg s.regs n).mpr (hn.imp_right (congrArg _))
  rcases execRd_cases (decodeReg n) s with ⟨v, hv, -⟩ | ⟨-, e⟩
  · exact absurd (hrej.symm.trans hv) nofun
  · exact e

end Sys2Proof.Proofs
end

section
/-! SUPPORT. The obligations of 30_encoding.md: each settled from the lemmas above. -/

namespace Sys2Proof.Proofs

open Sys2Proof.Machine Sys2Proof.Laws

/-- Settles O2, by the fields of the encoded word and the numbers of the registers. -/
theorem decodeOfEncodeGivesTheCommandBack : Obligations.DecodeOfEncodeGivesTheCommandBack :=
  fun _ => decodeWord_encode

/-- Settles O3, by the cases of the decoder. -/
theorem encodeOfDecodeGivesTheWordBack : Obligations.EncodeOfDecodeGivesTheWordBack :=
  fun _ _ h => ⟨wf_of_decodeWord h, encode_of_decodeWord h⟩

/-- Settles O4: match under mask and decoding both fix `op` and the bits of `arg` that the operand leaves out. -/
theorem wordIsItsCommandExactlyByMatchAndMask : Obligations.WordIsItsCommandExactlyByMatchAndMask := by
  intro w
  have hrd : (Instr.rd (decodeReg (argLow w))).arg = (argLow w).setWidth 64 :=
    congrArg (·.setWidth 64) (number_decodeReg (argLow w))
  have hnone : argField w = 0 ↔ argField w &&& BitVec.allOnes 64 = 0 := by rw [BitVec.and_allOnes]
  refine ⟨decodeWord_eq_ok_iff_mask (op := 1) (m := BitVec.allOnes 64) rfl rfl hnone,
    decodeWord_eq_ok_iff_mask (op := 2) (m := BitVec.allOnes 56 ++ 0#8) rfl rfl (argField_eq_byte_iff w),
    decodeWord_eq_ok_iff_mask (op := 3) (m := BitVec.allOnes 64) rfl rfl hnone,
    decodeWord_eq_ok_iff_mask (op := 4) (m := 0) rfl rfl (iff_of_true rfl BitVec.and_zero),
    decodeWord_eq_ok_iff_mask (op := 5) (m := BitVec.allOnes 56 ++ 0#8) (i := .rd _) (wf_decodeReg _) rfl ?_⟩
  rw [← argLow, hrd]
  exact argField_eq_byte_iff w

/-- Settles O9: a legal command responds by its own `op`, an illegal word only where it is an RD. -/
theorem onlyReadCommandsDriveTheResponsePort : Obligations.OnlyReadCommandsDriveTheResponsePort := by
  intro s t w rest hin h
  rw [← opField]
  rcases step_cases h with ⟨hnil, -⟩ | ⟨_, hin', -⟩ | ⟨w', rest', i, hin', hw, he⟩ | ⟨w', rest', e, hin', hw, rfl⟩
  · simp [hin] at hnil
  · simp [hin] at hin'
  · obtain ⟨⟨⟩, -⟩ := List.cons.inj (hin.symm.trans hin')
    rw [response_isSome_iff_of_exec he rfl, ((decodeWord_eq_ok_iff (wf_of_decodeWord hw) w).mp hw).1]
  · obtain ⟨⟨⟩, -⟩ := List.cons.inj (hin.symm.trans hin')
    rw [← eq_rdArg_iff hw, refuseWord_eq]
    by_cases he : e = .rdArg <;> simp [he]

/-- Settles O12: each register of the table is read by its number, and every number left out is refused. -/
theorem rdRespondsWithTheNumberedRegister : Obligations.RdRespondsWithTheNumberedRegister := by
  intro s reads
  have reg (x : Reg) (hx : x.wf = true) {v : Rsp} (hv : s.regs.value x = some v) : reads x.number v :=
    exec_rd_decodeReg_number hx hv
  have phase {p : Phase} (hp : s.regs.ph = p) : reads Reg.ph.number (p.code.setWidth 64) :=
    reg .ph rfl (hp ▸ rfl)
  have perr : (BitVec.ofBool s.regs.perr).setWidth 64 = if s.regs.perr then 1#64 else 0#64 := by
    cases s.regs.perr <;> rfl
  exact ⟨reg .status rfl rfl, phase, phase, phase, phase, reg .hcnt rfl rfl, reg .perr rfl (congrArg some perr),
    reg .crc rfl rfl, reg .crcst rfl rfl, reg .verseen rfl rfl, reg .maxver rfl rfl, reg .nlen rfl rfl,
    reg .typeTag rfl rfl, reg .dsize rfl rfl, reg .rsize rfl rfl, reg .clen rfl rfl, reg .shsize rfl rfl,
    reg .fsize rfl rfl, reg .pres rfl rfl, reg .doff rfl rfl, reg .roff rfl rfl, reg .coff rfl rfl,
    fun i => reg (.name i) rfl rfl, fun i => reg (.hbuf i) rfl rfl, fun _ hn => exec_rd_unassigned hn s⟩

/-- Settles O1, by decoding each word. -/
theorem wordsOfTheTableDecodeToTheirCommands : Obligations.WordsOfTheTableDecodeToTheirCommands := by
  unfold Obligations.WordsOfTheTableDecodeToTheirCommands
  decide

end Sys2Proof.Proofs
end

section
/-! SUPPORT. The checksum engine at every width: the bits that reversal and byte swap move, the linearity of the fold
over XOR, and the register as a polynomial modulo the generator, as 40_checksum_engine.md R127 argues. -/

namespace Sys2Proof.Proofs

open Sys2Proof.Machine Sys2Proof.Laws

/-! Bit reversal (40_checksum_engine.md R121). -/

section bitrev

variable {w : Nat}

/-- The first `k` terms of the sum place the low `k` bits. -/
theorem getLsbD_bitrevTerms (x : BitVec w) {k i : Nat} (hk : k ≤ w) (hi : i < w) :
    (bitrevTerms x k).getLsbD i = (decide (w - 1 - i < k) && x.getLsbD (w - 1 - i)) := by
  induction k with
  | zero => simp [bitrevTerms]
  | succ k ih =>
    have hterm : (if x.getLsbD k then BitVec.twoPow w (w - 1 - k) else 0).getLsbD i =
        (decide (w - 1 - i = k) && x.getLsbD k) := by
      have hpos : i = w - 1 - k ↔ w - 1 - i = k := by omega
      split_ifs with hx <;> simp [hx, hi, hpos]
    rw [bitrevTerms, BitVec.getLsbD_or, ih (by omega), hterm]
    rcases Nat.lt_trichotomy (w - 1 - i) k with hlt | rfl | hgt
    · simp [hlt, hlt.ne, Nat.lt_succ_of_lt hlt]
    · simp
    · simp [Nat.not_lt.mpr hgt.le, hgt.ne', Nat.not_lt.mpr (Nat.succ_le_of_lt hgt)]

theorem getLsbD_bitrev (x : BitVec w) {i : Nat} (hi : i < w) : (bitrev x).getLsbD i = x.getLsbD (w - 1 - i) := by
  rw [bitrev, getLsbD_bitrevTerms x le_rfl hi, decide_eq_true (show w - 1 - i < w by omega), Bool.true_and]

theorem bitrev_bitrev (x : BitVec w) : bitrev (bitrev x) = x := by
  refine BitVec.eq_of_getLsbD_eq fun i hi => ?_
  rw [getLsbD_bitrev _ hi, getLsbD_bitrev x (by omega), show w - 1 - (w - 1 - i) = i by omega]

theorem bitrev_xor (x y : BitVec w) : bitrev (x ^^^ y) = bitrev x ^^^ bitrev y := by
  refine BitVec.eq_of_getLsbD_eq fun i hi => ?_
  simp [getLsbD_bitrev _ hi]

theorem bitrev_twoPow {j : Nat} (hj : j < w) : bitrev (BitVec.twoPow w j) = BitVec.twoPow w (w - 1 - j) := by
  refine BitVec.eq_of_getLsbD_eq fun i hi => ?_
  have hpos : j = w - 1 - i ↔ w - 1 - j = i := by omega
  rw [getLsbD_bitrev _ hi, BitVec.getLsbD_twoPow, BitVec.getLsbD_twoPow, decide_eq_decide.mpr hpos, decide_eq_true hj,
    decide_eq_true (show w - 1 - j < w by omega)]

end bitrev

/-! Byte swap (40_checksum_engine.md R122). -/

section byteswap

variable {m : Nat}

/-- Bytes 0 to `n-1` of the swapped value stand in the first `n` terms. -/
theorem getLsbD_byteswapTerms (x : BitVec (8 * m)) (n : Nat) {j k : Nat} (hj : j < m) (hk : k < 8) :
    (byteswapTerms x m n).getLsbD (8 * j + k) = (decide (j < n) && x.getLsbD (8 * (m - 1 - j) + k)) := by
  induction n with
  | zero => simp [byteswapTerms]
  | succ n ih =>
    rw [byteswapTerms, BitVec.getLsbD_or, ih, BitVec.getLsbD_shiftLeft, BitVec.getLsbD_setWidth,
      BitVec.getLsbD_extractLsb']
    rcases Nat.lt_trichotomy j n with hlt | rfl | hgt
    · simp [hlt, Nat.lt_succ_of_lt hlt, show 8 * j + k < 8 * n by omega]
    · simp [hk, show 8 * j + k < 8 * m by omega, show k < 8 * m by omega]
    · simp [Nat.not_lt.mpr hgt.le, Nat.not_lt.mpr (Nat.succ_le_of_lt hgt), show ¬ 8 * j + k - 8 * n < 8 by omega]

theorem getLsbD_byteswap (x : BitVec (8 * m)) {j k : Nat} (hj : j < m) (hk : k < 8) :
    (byteswap x).getLsbD (8 * j + k) = x.getLsbD (8 * (m - 1 - j) + k) := by
  rw [byteswap, Nat.mul_div_cancel_left m (by omega), getLsbD_byteswapTerms x m hj hk, decide_eq_true hj, Bool.true_and]

theorem byteswap_byteswap (x : BitVec (8 * m)) : byteswap (byteswap x) = x := by
  refine BitVec.eq_of_getLsbD_eq fun i hi => ?_
  have hj : i / 8 < m := by omega
  have hk : i % 8 < 8 := by omega
  rw [← Nat.div_add_mod i 8, getLsbD_byteswap _ hj hk, getLsbD_byteswap x (by omega) hk,
    show m - 1 - (m - 1 - i / 8) = i / 8 by omega]

end byteswap

/-! The output stage loses nothing. -/

theorem crcFinal_injective {w : Nat} (hw : w % 8 = 0) (p : ChecksumParameters w) : Function.Injective (crcFinal p) := by
  obtain ⟨m, rfl⟩ := Nat.dvd_of_mod_eq_zero hw
  have hreflect : Function.Injective fun r : BitVec (8 * m) => if p.reflectOutput then bitrev r else r := by
    cases p.reflectOutput
    · exact Function.injective_id
    · exact Function.LeftInverse.injective bitrev_bitrev
  have hswap : Function.Injective fun r : BitVec (8 * m) => if p.byteSwapOutput then byteswap r else r := by
    cases p.byteSwapOutput
    · exact Function.injective_id
    · exact Function.LeftInverse.injective byteswap_byteswap
  have hxor : Function.Injective (· ^^^ p.finalXor) := fun _ _ => (BitVec.xor_left_inj _).mp
  exact hswap.comp (hxor.comp hreflect)

theorem compute_of_bytes {w : Nat} (p : ChecksumParameters w) (h8 : 8 ≤ w) (hmod : w % 8 = 0) (data : List Byte) :
    compute data p = some (crcFinal p (crcFold p p.initial data)) :=
  if_pos ⟨h8, hmod⟩

/-! The fold is linear over XOR (40_checksum_engine.md R127, item 4). -/

section linear

variable {w : Nat} (p : ChecksumParameters w)

/-- What a byte adds to the register before the eight rounds (40_checksum_engine.md R123). -/
def byteTerm (b : Byte) : BitVec w := (if p.reflectInput then bitrev b else b).setWidth w <<< (w - 8)

theorem crcByte_eq_crcRounds (reg : BitVec w) (b : Byte) : crcByte p reg b = crcRounds p 8 (reg ^^^ byteTerm p b) := rfl

theorem byteTerm_xor (b b' : Byte) : byteTerm p (b ^^^ b') = byteTerm p b ^^^ byteTerm p b' := by
  unfold byteTerm
  split_ifs <;> simp [bitrev_xor, BitVec.setWidth_xor, BitVec.shiftLeft_xor_distrib]

theorem crcByte_xor (r r' : BitVec w) (b b' : Byte) :
    crcByte p (r ^^^ r') (b ^^^ b') = crcByte p r b ^^^ crcByte p r' b' := by
  have hregister : r ^^^ r' ^^^ (byteTerm p b ^^^ byteTerm p b') = (r ^^^ byteTerm p b) ^^^ (r' ^^^ byteTerm p b') := by
    ac_rfl
  rw [crcByte_eq_crcRounds, byteTerm_xor, hregister, crcRounds_xor, crcByte_eq_crcRounds, crcByte_eq_crcRounds]

theorem crcFold_xor (r r' : BitVec w) {a b : List Byte} (h : a.length = b.length) :
    crcFold p (r ^^^ r') (List.zipWith (· ^^^ ·) a b) = crcFold p r a ^^^ crcFold p r' b := by
  induction a generalizing r r' b with
  | nil =>
    obtain rfl : b = [] := List.eq_nil_of_length_eq_zero h.symm
    rfl
  | cons x a ih =>
    obtain ⟨y, b, rfl⟩ := List.exists_cons_of_length_eq_add_one h.symm
    rw [List.zipWith_cons_cons, crcFold_cons, crcByte_xor, ih _ _ (Nat.succ.inj h), crcFold_cons, crcFold_cons]

theorem crcRounds_add (m n : Nat) (r : BitVec w) : crcRounds p (m + n) r = crcRounds p n (crcRounds p m r) := by
  induction m generalizing r with
  | zero => rw [Nat.zero_add]; rfl
  | succ m ih => rw [Nat.succ_add, crcRounds, ih]; rfl

/-- A change of the register goes through eight rounds with every byte that follows. -/
theorem crcFold_xor_register (r d : BitVec w) (data : List Byte) :
    crcFold p (r ^^^ d) data = crcFold p r data ^^^ crcRounds p (8 * data.length) d := by
  induction data generalizing r d with
  | nil => rfl
  | cons b data ih =>
    have hbyte : crcByte p (r ^^^ d) b = crcByte p r b ^^^ crcRounds p 8 d := by
      rw [crcByte_eq_crcRounds, crcByte_eq_crcRounds, ← crcRounds_xor]
      congr 1
      ac_rfl
    rw [crcFold_cons, hbyte, ih, crcFold_cons, ← crcRounds_add, List.length_cons, Nat.mul_succ, Nat.add_comm 8]

/-- Changing the byte at index `i` changes the fold by the rounds of the change from there on. -/
theorem crcFold_set_xor (r : BitVec w) {data : List Byte} {i : Nat} (hi : i < data.length) (e : Byte) :
    crcFold p r (data.set i (data[i] ^^^ e)) =
      crcFold p r data ^^^ crcRounds p (8 * (data.length - i)) (byteTerm p e) := by
  have hbyte (r : BitVec w) (b : Byte) : crcByte p r (b ^^^ e) = crcByte p r b ^^^ crcRounds p 8 (byteTerm p e) := by
    rw [crcByte_eq_crcRounds, byteTerm_xor, ← BitVec.xor_assoc, crcRounds_xor, crcByte_eq_crcRounds]
  have hsplit : data = data.take i ++ data[i] :: data.drop (i + 1) := by simp
  have hrounds : 8 + 8 * (data.length - (i + 1)) = 8 * (data.length - i) := by omega
  conv_rhs => rw [hsplit, crcFold_append, crcFold_cons]
  rw [List.set_eq_take_append_cons_drop, if_pos hi, crcFold_append, crcFold_cons, hbyte, crcFold_xor_register,
    ← crcRounds_add, List.length_drop, hrounds, ← hsplit]

/-- A single bit of a byte enters the register at a single bit. -/
theorem byteTerm_twoPow (hw : 8 ≤ w) {j : Nat} (hj : j < 8) :
    ∃ k, k < w ∧ byteTerm p (BitVec.twoPow 8 j) = BitVec.twoPow w k := by
  have hshift {l : Nat} (hl : l < 8) :
      (BitVec.twoPow 8 l).setWidth w <<< (w - 8) = BitVec.twoPow w (w - 8 + l) := by
    refine BitVec.eq_of_getLsbD_eq fun i hi => ?_
    rw [BitVec.getLsbD_shiftLeft, BitVec.getLsbD_setWidth, BitVec.getLsbD_twoPow, BitVec.getLsbD_twoPow,
      Bool.eq_iff_iff]
    simp only [Bool.and_eq_true, Bool.not_eq_true', decide_eq_true_eq, decide_eq_false_iff_not]
    omega
  unfold byteTerm
  split_ifs
  · exact ⟨w - 8 + (8 - 1 - j), by omega, by rw [bitrev_twoPow hj, hshift (by omega)]⟩
  · exact ⟨w - 8 + j, by omega, hshift hj⟩

end linear

/-! With polynomial 0 the register forgets every byte within its own eight rounds (40_checksum_engine.md R127). -/

section zeroPolynomial

variable {w : Nat} {p : ChecksumParameters w} (hp : p.polynomial = 0)

include hp

theorem crcRounds_of_polynomial_zero (k : Nat) (r : BitVec w) : crcRounds p k r = r <<< k := by
  induction k generalizing r with
  | zero => exact (BitVec.shiftLeft_zero r).symm
  | succ k ih =>
    have hround : crcRound p r = r <<< 1 := by simp [crcRound, hp]
    rw [crcRounds, ih, hround, ← BitVec.shiftLeft_add, Nat.add_comm]

theorem crcByte_of_polynomial_zero (reg : BitVec w) (b : Byte) : crcByte p reg b = reg <<< 8 := by
  have hterm : byteTerm p b <<< 8 = 0 := by
    rw [byteTerm, ← BitVec.shiftLeft_add]
    exact BitVec.shiftLeft_eq_zero (by omega)
  rw [crcByte_eq_crcRounds, crcRounds_of_polynomial_zero hp, BitVec.shiftLeft_xor_distrib, hterm]
  exact BitVec.xor_zero

theorem crcFold_of_polynomial_zero (reg : BitVec w) (data : List Byte) :
    crcFold p reg data = reg <<< (8 * data.length) := by
  induction data generalizing reg with
  | nil => exact (BitVec.shiftLeft_zero reg).symm
  | cons b data ih =>
    rw [crcFold_cons, ih, crcByte_of_polynomial_zero hp, ← BitVec.shiftLeft_add, List.length_cons, Nat.mul_succ,
      Nat.add_comm]

end zeroPolynomial

/-! The register as a polynomial over GF(2), in which a round is multiplication by `X` modulo the generator. -/

section polynomial

open Polynomial

variable {w : Nat}

/-- Bit `i` of the register is the coefficient of `X ^ i`. -/
noncomputable def registerPoly (r : BitVec w) : (ZMod 2)[X] :=
  ∑ i ∈ Finset.range w, if r.getLsbD i then X ^ i else 0

/-- The generator: the parameter with its top term (40_checksum_engine.md R120). -/
noncomputable def generatorPoly (p : ChecksumParameters w) : (ZMod 2)[X] := X ^ w + registerPoly p.polynomial

theorem coeff_ite_X_pow (b : Bool) (i k : Nat) :
    (if b then X ^ i else 0 : (ZMod 2)[X]).coeff k = if k = i ∧ b then 1 else 0 := by
  cases b <;> simp [coeff_X_pow]

theorem coeff_registerPoly (r : BitVec w) (k : Nat) : (registerPoly r).coeff k = if r.getLsbD k then 1 else 0 := by
  simp only [registerPoly, finsetSum_coeff, coeff_ite_X_pow, ite_and, Finset.sum_ite_eq, Finset.mem_range]
  rcases Nat.lt_or_ge k w with hk | hk
  · rw [if_pos hk]
  · simp [BitVec.getLsbD_of_ge r k hk]

theorem registerPoly_zero : registerPoly (0 : BitVec w) = 0 := by
  simp [registerPoly]

theorem registerPoly_twoPow {k : Nat} (hk : k < w) : registerPoly (BitVec.twoPow w k) = X ^ k := by
  ext n
  simp [coeff_registerPoly, coeff_X_pow, hk, eq_comm]

theorem registerPoly_eq_zero {r : BitVec w} (h : registerPoly r = 0) : r = 0 := by
  refine BitVec.eq_of_getLsbD_eq fun i hi => ?_
  have hcoeff := coeff_registerPoly r i
  simpa [h] using hcoeff

theorem registerPoly_xor (r r' : BitVec w) : registerPoly (r ^^^ r') = registerPoly r + registerPoly r' := by
  ext n
  rw [coeff_add, coeff_registerPoly, coeff_registerPoly, coeff_registerPoly, BitVec.getLsbD_xor]
  cases r.getLsbD n <;> cases r'.getLsbD n <;> decide

theorem degree_registerPoly_lt (r : BitVec w) : (registerPoly r).degree < w := by
  rw [degree_lt_iff_coeff_zero]
  intro m hm
  simp [coeff_registerPoly, BitVec.getLsbD_of_ge r m hm]

/-- Shifting left multiplies by `X`, and the top bit leaves the register. -/
theorem X_mul_registerPoly (r : BitVec w) :
    X * registerPoly r = registerPoly (r <<< 1) + if r.msb then X ^ w else 0 := by
  ext n
  rw [coeff_add, coeff_registerPoly, coeff_ite_X_pow, BitVec.msb_eq_getLsbD_last, BitVec.getLsbD_shiftLeft]
  cases n with
  | zero => cases w <;> simp
  | succ n =>
    rw [coeff_X_mul, coeff_registerPoly]
    rcases Nat.lt_trichotomy (n + 1) w with hlt | rfl | hgt
    · simp [hlt, hlt.ne]
    · simp
    · simp [Nat.not_lt.mpr hgt.le, hgt.ne', BitVec.getLsbD_of_ge r n (by omega)]

theorem X_mul_registerPoly_sub_crcRound (p : ChecksumParameters w) (r : BitVec w) :
    X * registerPoly r - registerPoly (crcRound p r) = if r.msb then generatorPoly p else 0 := by
  rw [X_mul_registerPoly, crcRound]
  split_ifs
  · rw [registerPoly_xor, generatorPoly, add_sub_add_left_eq_sub, CharTwo.sub_eq_add]
  · simp

/-- `n` rounds multiply the register by `X ^ n` modulo the generator. -/
theorem generatorPoly_dvd_sub_crcRounds (p : ChecksumParameters w) (n : Nat) (r : BitVec w) :
    generatorPoly p ∣ X ^ n * registerPoly r - registerPoly (crcRounds p n r) := by
  induction n generalizing r with
  | zero => simp [crcRounds]
  | succ n ih =>
    have hround : generatorPoly p ∣ X * registerPoly r - registerPoly (crcRound p r) := by
      rw [X_mul_registerPoly_sub_crcRound]
      split_ifs <;> simp
    have hsplit : X ^ (n + 1) * registerPoly r - registerPoly (crcRounds p (n + 1) r) =
        X ^ n * (X * registerPoly r - registerPoly (crcRound p r)) +
          (X ^ n * registerPoly (crcRound p r) - registerPoly (crcRounds p n (crcRound p r))) := by
      rw [crcRounds]
      ring
    exact hsplit ▸ dvd_add (hround.mul_left _) (ih _)

/-- The generator divides a power of `X` only where it is one: `X` is prime. -/
theorem polynomial_eq_zero_of_generatorPoly_dvd_X_pow {p : ChecksumParameters w} {n : Nat}
    (h : generatorPoly p ∣ X ^ n) : p.polynomial = 0 := by
  have hmonic : (generatorPoly p).Monic := monic_X_pow_add (degree_registerPoly_lt _)
  obtain ⟨i, -, hassoc⟩ := (dvd_prime_pow prime_X n).mp h
  have heq : generatorPoly p = X ^ i := eq_of_monic_of_associated hmonic (monic_X_pow i) hassoc
  have hdeg : (generatorPoly p).degree = w :=
    (degree_add_eq_left_of_degree_lt (by simpa using degree_registerPoly_lt p.polynomial)).trans (degree_X_pow w)
  obtain rfl : i = w := by simpa [heq] using hdeg
  exact registerPoly_eq_zero (left_eq_add.mp heq.symm)

/-- A single bit never dies out (40_checksum_engine.md R127, item 2). -/
theorem crcRounds_twoPow_ne_zero {p : ChecksumParameters w} (hp : p.polynomial ≠ 0) (n : Nat) {k : Nat} (hk : k < w) :
    crcRounds p n (BitVec.twoPow w k) ≠ 0 := by
  intro h
  have hdvd := generatorPoly_dvd_sub_crcRounds p n (BitVec.twoPow w k)
  rw [h, registerPoly_zero, sub_zero, registerPoly_twoPow hk, ← pow_add] at hdvd
  exact hp (polynomial_eq_zero_of_generatorPoly_dvd_X_pow hdvd)

end polynomial

end Sys2Proof.Proofs
end

section
/-! SUPPORT. The block's instance in the arithmetic of 40_checksum_engine.md R126, and an accepted LDB. -/

namespace Sys2Proof.Proofs

open Sys2Proof.Machine Sys2Proof.Laws

/-- One round on natural numbers modulo 65536 (40_checksum_engine.md R126). -/
def roundNat (r : Nat) : Nat := if r / 32768 % 2 = 1 then (r * 2 % 65536) ^^^ 0x1021 else r * 2 % 65536

theorem crcRound_xmodem_toNat (r : CrcWord) : (crcRound xmodem r).toNat = roundNat r.toNat := by
  have hmsb : r.msb = true ↔ r.toNat / 32768 % 2 = 1 := by
    rw [BitVec.msb_eq_decide, decide_eq_true_iff]
    have hlt := r.isLt
    omega
  have hshift : (r <<< 1).toNat = r.toNat * 2 % 65536 := by
    rw [BitVec.toNat_shiftLeft, Nat.shiftLeft_eq]
  unfold crcRound roundNat
  by_cases h : r.msb = true
  · rw [if_pos h, if_pos (hmsb.mp h), BitVec.toNat_xor, hshift]
    rfl
  · rw [if_neg h, if_neg (mt hmsb.mpr h), hshift]

theorem crcRounds_xmodem_toNat (k : Nat) (r : CrcWord) : (crcRounds xmodem k r).toNat = roundNat^[k] r.toNat := by
  induction k generalizing r with
  | zero => rfl
  | succ k ih => rw [crcRounds, ih, crcRound_xmodem_toNat, Function.iterate_succ_apply]

theorem byteTerm_xmodem_toNat (b : Byte) : (byteTerm xmodem b).toNat = b.toNat * 256 := by
  have hlt := b.isLt
  rw [byteTerm, BitVec.toNat_shiftLeft, Nat.shiftLeft_eq]
  simp only [xmodem, Bool.false_eq_true, if_false, BitVec.toNat_setWidth]
  omega

theorem x16Byte_toNat (reg : CrcWord) (b : Byte) :
    (x16Byte reg b).toNat = roundNat^[8] (reg.toNat ^^^ (b.toNat * 256)) := by
  rw [x16Byte, config_crc, crcByte_eq_crcRounds, crcRounds_xmodem_toNat, BitVec.toNat_xor, byteTerm_xmodem_toNat]

theorem x16_eq_crcFold (data : List Byte) : x16 data = crcFold xmodem 0 data := crcFinal_xmodem _

/-! LDB. -/

theorem execLdb_of_room {s : State} {i : HAddr} (hph : s.regs.ph = .load) (hcnt : s.regs.hcnt.toNat = i.val)
    (b : Byte) :
    execLdb b s = .next (s.setRegs (s.regs.loadByte i b)) := by
  rcases execLdb_cases b s with ⟨a, -, ha, e⟩ | ⟨hrej, -⟩
  · obtain rfl : a = i := Fin.ext (ha.symm.trans hcnt)
    exact e
  · rw [hcnt] at hrej
    exact absurd hrej (by simp [hph])

end Sys2Proof.Proofs
end

section
/-! SUPPORT. The obligations of 40_checksum_engine.md: each settled from the lemmas above. -/

namespace Sys2Proof.Proofs

open Sys2Proof.Machine Sys2Proof.Laws

/-- Settles O25. A flip enters the register as one bit, which no number of rounds brings to 0 and which the output
stage keeps apart; with polynomial 0 the fold depends on the length alone. -/
theorem checksumChangesWithEverySingleBitFlip : Obligations.ChecksumChangesWithEverySingleBitFlip := by
  intro w p h8 hmod
  simp only [compute_of_bytes p h8 hmod]
  constructor
  · intro hp data i j hi hj heq
    obtain ⟨k, hk, hbit⟩ := byteTerm_twoPow p h8 hj
    have hfold := crcFinal_injective hmod p (Option.some.inj heq)
    rw [crcFold_set_xor p p.initial hi, hbit] at hfold
    exact crcRounds_twoPow_ne_zero hp _ hk ((BitVec.xor_right_inj _).mp (hfold.trans BitVec.xor_zero.symm))
  · intro hp data data' hlen
    rw [crcFold_of_polynomial_zero hp, crcFold_of_polynomial_zero hp, hlen]

/-- Settles O13: the byte is loaded at index HCNT, and the buffer is read back by the rules for a write. -/
theorem ldbStoresAndFoldsTheNextByte : Obligations.LdbStoresAndFoldsTheNextByte := by
  intro b s i hph hcnt hwf
  have hcount : s.regs.hcnt + 1 = BitVec.ofNat 8 (i.val + 1) := by
    rw [← hcnt, BitVec.ofNat_add, BitVec.ofNat_toNat, BitVec.setWidth_eq]
    rfl
  refine ⟨s.regs.hbuf.write i b, ?_, wf_write hwf i b, read_write_same hwf i b,
    fun a ha => read_write_other s.regs.hbuf ha b⟩
  rw [← hcount]
  exact execLdb_of_room hph hcnt b

/-- Settles O22, bit by bit of the sum that defines the reversal. -/
theorem bitReversalReversesBitsOfAnyWidth : Obligations.BitReversalReversesBitsOfAnyWidth :=
  fun _ x => ⟨fun _ hi => getLsbD_bitrev x hi, bitrev_bitrev x⟩

/-- Settles O23, byte by byte of the sum that defines the swap. -/
theorem byteSwapReversesBytes : Obligations.ByteSwapReversesBytes :=
  fun _ x => ⟨fun _ _ hj hk => getLsbD_byteswap x hj hk, byteswap_byteswap x⟩

/-- Settles O24: each round of the register is `roundNat` of its value. -/
theorem instanceIsTheBitSerialFold : Obligations.InstanceIsTheBitSerialFold :=
  ⟨x16Byte_toNat, fun data => ⟨x16_eq_foldl data, rfl⟩⟩

/-- Settles O26, by the linearity of the fold from 0. -/
theorem instanceIsLinearOverXor : Obligations.InstanceIsLinearOverXor := by
  intro a b hlen
  simp only [x16_eq_crcFold]
  exact crcFold_xor xmodem 0 0 hlen

end Sys2Proof.Proofs
end

section
/-! SUPPORT. DEC as one equation per check of 41_header_decoder.md R148, in the order of 60_exceptions.md R194. -/

namespace Sys2Proof.Proofs

open Sys2Proof.Machine Sys2Proof.Laws

section decode

variable {r : Regs}

theorem decode_of_short (hlt : r.hcnt.toNat < 128) : r.decode = r.raise .tooSmall := if_pos hlt

theorem decode_of_marker (hc : 128 ≤ r.hcnt.toNat) (h0 : r.hbuf.read 0x00 ≠ 0) :
    r.decode = r.raise .notContainerFormat :=
  (if_neg hc.not_gt).trans (if_pos h0)

theorem decode_of_nameLength (hc : 128 ≤ r.hcnt.toNat) (h0 : r.hbuf.read 0x00 = 0)
    (hn : ¬ (1 ≤ (r.hbuf.read 0x01).toNat ∧ (r.hbuf.read 0x01).toNat ≤ 63)) :
    r.decode = r.raise .notContainerFormat :=
  (if_neg hc.not_gt).trans ((if_neg (not_not.mpr h0)).trans (if_pos (mt (nameLengthOk_iff _).mp hn)))

/-- A loaded header with marker 0 and a legal name length comes to the version check. -/
theorem decode_eq_decVersion (hc : 128 ≤ r.hcnt.toNat) (h0 : r.hbuf.read 0x00 = 0)
    (hn : 1 ≤ (r.hbuf.read 0x01).toNat ∧ (r.hbuf.read 0x01).toNat ≤ 63) : r.decode = r.decVersion r.hbuf.read :=
  (if_neg hc.not_gt).trans
    ((if_neg (not_not.mpr h0)).trans (if_neg (not_not.mpr ((nameLengthOk_iff _).mpr hn))))

variable {h : Header}

theorem decVersion_of_tooNew (hv : r.maxver.toNat < (h 0x7B).toNat) :
    r.decVersion h = { r with verseen := h 0x7B }.raise .versionTooNew :=
  if_pos hv

theorem decVersion_of_mismatch (hv : (h 0x7B).toNat ≤ r.maxver.toNat) (hcrc : r.crc ≠ h 0x7C ++ h 0x7D) :
    r.decVersion h = { r with verseen := h 0x7B, crcst := h 0x7C ++ h 0x7D }.raise .checksumMismatch :=
  (if_neg hv.not_gt).trans (if_pos hcrc)

theorem decVersion_of_match (hv : (h 0x7B).toNat ≤ r.maxver.toNat) (hcrc : r.crc = h 0x7C ++ h 0x7D) :
    r.decVersion h = { r with verseen := h 0x7B, crcst := h 0x7C ++ h 0x7D }.setRecord h :=
  (if_neg hv.not_gt).trans (if_neg (not_not.mpr hcrc))

end decode

theorem exec_dec_of_decode {s : State} {r : Regs} (hph : s.regs.ph = .load) (hr : s.regs.decode = r) :
    exec .dec s = .next (s.setRegs r) :=
  (if_pos hph).trans (by rw [hr])

end Sys2Proof.Proofs
end

section
/-! SUPPORT. The function `decode`: when it succeeds, and when it answers a checksum mismatch. -/

namespace Sys2Proof.Proofs

open Sys2Proof.Machine Sys2Proof.Laws

/-- Steps 1 to 3 of `decode` pass (41_header_decoder.md R141 to R143). -/
def FormatOk (h : Header) : Prop :=
  h 0x00 = 0 ∧ 1 ≤ (h 0x01).toNat ∧ (h 0x01).toNat ≤ 63 ∧ (h 0x7B).toNat ≤ 0x81

theorem decodeHeader_eq_ok_iff (h : Header) (record : HeaderRecord) :
    decodeHeader h = .ok record ↔ FormatOk h ∧ headerChecksum h = fieldCrc h ∧ extractRecord h = record := by
  unfold FormatOk
  rw [fieldCrc_eq]
  rcases decodeHeader_cases h with ⟨hf, e⟩ | ⟨h0, hl, hu, hv, e⟩ | ⟨-, -, -, -, hcrc, e⟩ | ⟨h0, hl, hu, hv, hcrc, e⟩
  · rw [e]
    exact iff_of_false nofun fun ⟨⟨h0, hl, hu, _⟩, _⟩ => hf.elim (· h0) (· ⟨hl, hu⟩)
  · rw [e]
    exact iff_of_false nofun fun ⟨⟨_, _, _, hv'⟩, _⟩ => hv'.not_gt hv
  · rw [e]
    exact iff_of_false nofun fun ⟨_, hcrc', _⟩ => hcrc hcrc'
  · rw [e, Except.ok.injEq]
    exact ⟨fun hr => ⟨⟨h0, hl, hu, hv⟩, hcrc, hr⟩, fun ⟨_, _, hr⟩ => hr⟩

/-- A header whose stored checksum is wrong is rejected, and for that reason where steps 1 to 3 pass. -/
theorem decodeHeader_of_checksum_ne {h : Header} (hne : headerChecksum h ≠ fieldCrc h) :
    ∃ e, decodeHeader h = .error e ∧ (FormatOk h → e.error = .checksumMismatch) := by
  rcases decodeHeader_cases h with ⟨hf, e⟩ | ⟨-, -, -, hv, e⟩ | ⟨-, -, -, -, -, e⟩ | ⟨-, -, -, -, hcrc, -⟩
  · exact ⟨_, e, fun ⟨h0, hl, hu, _⟩ => absurd hf (not_or.mpr ⟨not_not.mpr h0, not_not.mpr ⟨hl, hu⟩⟩)⟩
  · exact ⟨_, e, fun ⟨_, _, _, hv'⟩ => absurd hv hv'.not_gt⟩
  · exact ⟨_, e, fun _ => rfl⟩
  · exact absurd hcrc hne

/-! A flipped bit. -/

/-- Header `h` with bit `j` of byte `a` flipped. -/
def flipBit (h : Header) (a : HAddr) (j : Nat) : Header := fun x => if x = a then h a ^^^ BitVec.twoPow 8 j else h x

theorem flipBit_other (h : Header) {a x : HAddr} (j : Nat) (hx : x.val ≠ a.val) : flipBit h a j x = h x :=
  if_neg (Fin.ne_of_val_ne hx)

theorem flipBit_same_ne (h : Header) (a : HAddr) {j : Nat} (hj : j < 8) : flipBit h a j a ≠ h a := by
  intro heq
  have hflip : h a ^^^ BitVec.twoPow 8 j = h a := (if_pos rfl).symm.trans heq
  have hbit := congrArg (·.getLsbD j) hflip
  simp [hj] at hbit

theorem headerBytes_flipBit (h : Header) (a : HAddr) (j : Nat) :
    headerBytes (flipBit h a j) = (headerBytes h).set a.val (h a ^^^ BitVec.twoPow 8 j) := by
  refine List.ext_getElem (by simp) fun i hi _ => ?_
  have hi' : i < 128 := by simpa using hi
  rw [List.getElem_set, headerBytes_get _ ⟨i, hi'⟩, headerBytes_get h ⟨i, hi'⟩]
  simp [flipBit, Fin.ext_iff, eq_comm]

/-- The checksum changes with every bit flipped in the bytes it covers: R127, item 2, for the block's instance. -/
theorem x16_set_xor_twoPow_ne (data : List Byte) {i j : Nat} (hi : i < data.length) (hj : j < 8) :
    x16 (data.set i (data[i] ^^^ BitVec.twoPow 8 j)) ≠ x16 data := by
  obtain ⟨hflip, -⟩ := checksumChangesWithEverySingleBitFlip 16 xmodem (by decide) (by decide)
  exact fun heq => hflip (by decide) data i j hi hj (congrArg some heq)

theorem headerChecksum_flipBit_ne (h : Header) {a : HAddr} {j : Nat} (ha : a.val < 124) (hj : j < 8) :
    headerChecksum (flipBit h a j) ≠ headerChecksum h := by
  have ha' : a.val < ((headerBytes h).take 124).length := by simpa using ha
  have hbyte : ((headerBytes h).take 124)[a.val] = h a := by rw [List.getElem_take, headerBytes_get]
  unfold headerChecksum
  rw [config_crcSpan, headerBytes_flipBit, List.take_set, ← hbyte]
  exact x16_set_xor_twoPow_ne _ ha' hj

theorem fieldCrc_congr {h h' : Header} (hu : h 0x7C = h' 0x7C) (hl : h 0x7D = h' 0x7D) : fieldCrc h = fieldCrc h' := by
  rw [fieldCrc_eq, fieldCrc_eq, hu, hl]

theorem bytes_eq_of_fieldCrc_eq {h h' : Header} (heq : fieldCrc h = fieldCrc h') :
    h 0x7C = h' 0x7C ∧ h 0x7D = h' 0x7D := by
  rw [fieldCrc_eq, fieldCrc_eq] at heq
  have hu := congrArg (·.extractLsb' 8 8) heq
  have hl := congrArg (·.extractLsb' 0 8) heq
  simp only [BitVec.extractLsb'_append_eq_left] at hu
  simp only [BitVec.extractLsb'_append_eq_right] at hl
  exact ⟨hu, hl⟩

/-- A flip in bytes [0,124) changes the computed checksum alone, one in bytes 124 and 125 the stored one alone. -/
theorem checksum_ne_of_flipBit {h : Header} (hcrc : headerChecksum h = fieldCrc h) {a : HAddr} {j : Nat}
    (ha : a.val < 126) (hj : j < 8) : headerChecksum (flipBit h a j) ≠ fieldCrc (flipBit h a j) := by
  intro heq
  rcases Nat.lt_or_ge a.val 124 with hlt | hge
  · have hstored : fieldCrc (flipBit h a j) = fieldCrc h :=
      fieldCrc_congr (flipBit_other h j (by omega)) (flipBit_other h j (by omega))
    exact headerChecksum_flipBit_ne h hlt hj (heq.trans (hstored.trans hcrc.symm))
  · have hcomputed : headerChecksum (flipBit h a j) = headerChecksum h :=
      headerChecksum_congr fun x hx => flipBit_other h j (by omega)
    obtain ⟨hu, hl⟩ := bytes_eq_of_fieldCrc_eq (heq.symm.trans (hcomputed.trans hcrc))
    obtain rfl | rfl : a = 0x7C ∨ a = 0x7D := (show a.val = 0x7C ∨ a.val = 0x7D by omega).imp Fin.ext Fin.ext
    · exact flipBit_same_ne h _ hj hu
    · exact flipBit_same_ne h _ hj hl

end Sys2Proof.Proofs
end

section
/-! SUPPORT. Headers built from fields, as 41_header_decoder.md R147 says: the bytes of a big-endian value, bytes placed
at an offset, the fields of 30_encoding.md R90 in their order, the checksum last. -/

namespace Sys2Proof.Proofs

open Sys2Proof.Machine Sys2Proof.Laws

/-! Big-endian values and their bytes. -/

/-- The byte from bit `start` on, put under the bits above it. -/
theorem extractByte_append {w : Nat} (x : BitVec w) (start len : Nat) :
    x.extractLsb' (start + 8) len ++ x.extractLsb' start 8 = x.extractLsb' start (len + 8) :=
  BitVec.extractLsb'_append_extractLsb'_eq_extractLsb' rfl

theorem be2_eq_of_bytes {h : Header} {start : Nat} (inside : start + 2 ≤ 128) {x : BitVec 16}
    (hx : ∀ k : Fin 2, h ⟨start + k.val, by omega⟩ = x.extractLsb' (8 * (1 - k.val)) 8) : be2 h start inside = x := by
  have hbytes : be2 h start inside = x.extractLsb' 8 8 ++ x.extractLsb' 0 8 := congr (congrArg _ (hx 0)) (hx 1)
  rw [hbytes, extractByte_append x 0 8, BitVec.extractLsb'_eq_self]

theorem be4_eq_of_bytes {h : Header} {start : Nat} (inside : start + 4 ≤ 128) {x : BitVec 32}
    (hx : ∀ k : Fin 4, h ⟨start + k.val, by omega⟩ = x.extractLsb' (8 * (3 - k.val)) 8) : be4 h start inside = x := by
  have hbytes : be4 h start inside =
      x.extractLsb' 24 8 ++ x.extractLsb' 16 8 ++ x.extractLsb' 8 8 ++ x.extractLsb' 0 8 :=
    congr (congrArg _ (congr (congrArg _ (congr (congrArg _ (hx 0)) (hx 1))) (hx 2))) (hx 3)
  rw [hbytes, extractByte_append x 16 8, extractByte_append x 8 16, extractByte_append x 0 24,
    BitVec.extractLsb'_eq_self]

/-! Every header that holds fields decodes to them. -/

section holds

variable {h : Header} {name : List Byte} {tag d r : BitVec 32} {c sh : BitVec 16} {v : Byte}

theorem fieldName_of_holds (hh : HeaderHolds h name tag d r c sh v) (hlen : name.length ≤ 63) :
    (List.ofFn (fieldNameByte h)).take (fieldNlen h).toNat = name := by
  rw [fieldNlen_eq, hh.nameLength]
  refine List.ext_getElem (by simpa using hlen) fun i _ hi => ?_
  rw [List.getElem_take, List.getElem_ofFn, fieldNameByte_eq]
  exact hh.nameBytes i hi _

theorem extractRecord_of_holds (hh : HeaderHolds h name tag d r c sh v) (hlen : name.length ≤ 63) :
    extractRecord h = { name := name, typeTag := tag, dataSize := d, resourceSize := r, commentLength := c,
                        secondaryHeaderSize := sh } := by
  unfold extractRecord
  rw [fieldName_of_holds hh hlen]
  congr
  · exact be4_eq_of_bytes _ hh.typeTag
  · exact be4_eq_of_bytes _ hh.dataSize
  · exact be4_eq_of_bytes _ hh.resourceSize
  · exact be2_eq_of_bytes _ hh.commentLength
  · exact be2_eq_of_bytes _ hh.secondaryHeaderSize

theorem decodeHeader_of_holds (hh : HeaderHolds h name tag d r c sh v) (hmin : 1 ≤ name.length)
    (hmax : name.length ≤ 63) (hv : v.toNat ≤ 0x81) :
    decodeHeader h = .ok { name := name, typeTag := tag, dataSize := d, resourceSize := r, commentLength := c,
                           secondaryHeaderSize := sh } := by
  refine (decodeHeader_eq_ok_iff h _).mpr ⟨⟨hh.marker, ?_, ?_, ?_⟩, ?_, extractRecord_of_holds hh hmax⟩
  · exact hh.nameLength ▸ hmin
  · exact hh.nameLength ▸ hmax
  · exact hh.version ▸ hv
  · exact (be2_eq_of_bytes _ hh.checksum).symm

end holds

/-! A header that holds given fields. -/

/-- The `n` bytes of a value, most significant first. -/
def bigEndian {w : Nat} (n : Nat) (x : BitVec w) : List Byte :=
  List.ofFn fun k : Fin n => x.extractLsb' (8 * (n - 1 - k.val)) 8

@[simp] theorem bigEndian_length {w : Nat} (n : Nat) (x : BitVec w) : (bigEndian n x).length = n := List.length_ofFn

theorem bigEndian_get {w : Nat} {n : Nat} (x : BitVec w) (k : Fin n) :
    (bigEndian n x)[k.val]'(by simp) = x.extractLsb' (8 * (n - 1 - k.val)) 8 :=
  List.getElem_ofFn _

/-- Bytes at an offset of the header. -/
abbrev Placement := Nat × List Byte

/-- Header `h` with the bytes of `p` from its offset on. -/
def place (p : Placement) (h : Header) : Header := fun a =>
  if hp : p.1 ≤ a.val ∧ a.val - p.1 < p.2.length then p.2[a.val - p.1] else h a

theorem place_inside (p : Placement) (h : Header) {k : Nat} (hk : k < p.2.length) (ha : p.1 + k < 128) :
    place p h ⟨p.1 + k, ha⟩ = p.2[k] := by
  simp [place, hk]

theorem place_outside {p : Placement} (h : Header) {a : HAddr} (ha : a.val < p.1 ∨ p.1 + p.2.length ≤ a.val) :
    place p h a = h a :=
  dif_neg (by omega)

/-- Placements one after the other, in the order of their offsets. -/
def Rising (ps : List Placement) : Prop := ps.Pairwise fun p q => p.1 + p.2.length ≤ q.1

/-- Rising placements do not overwrite each other. -/
theorem foldr_place_inside {ps : List Placement} (hps : Rising ps) {p : Placement} (hp : p ∈ ps) (fill : Header)
    {k : Nat} (hk : k < p.2.length) (ha : p.1 + k < 128) : ps.foldr place fill ⟨p.1 + k, ha⟩ = p.2[k] := by
  induction ps with
  | nil => exact absurd hp List.not_mem_nil
  | cons q ps ih =>
    obtain ⟨hq, hps⟩ := List.pairwise_cons.mp hps
    rw [List.foldr_cons]
    rcases List.mem_cons.mp hp with rfl | hp
    · exact place_inside p _ hk ha
    · rw [place_outside _ (.inr (Nat.le_add_right_of_le (hq p hp))), ih hps hp]

theorem foldr_place_outside {ps : List Placement} (fill : Header) {a : HAddr}
    (ha : ∀ p ∈ ps, a.val < p.1 ∨ p.1 + p.2.length ≤ a.val) : ps.foldr place fill a = fill a := by
  induction ps with
  | nil => rfl
  | cons q ps ih =>
    obtain ⟨hq, hps⟩ := List.forall_mem_cons.mp ha
    rw [List.foldr_cons, place_outside _ hq, ih hps]

/-- A header with its checksum stored where 30_encoding.md R94 places it. -/
def withChecksum (h : Header) : Header := place (0x7C, bigEndian 2 (headerChecksum h)) h

theorem withChecksum_below (h : Header) {a : HAddr} (ha : a.val < 0x7C) : withChecksum h a = h a :=
  place_outside h (.inl ha)

theorem withChecksum_stored (h : Header) (k : Fin 2) :
    withChecksum h ⟨0x7C + k.val, by omega⟩ =
      (x16 ((headerBytes (withChecksum h)).take 124)).extractLsb' (8 * (1 - k.val)) 8 := by
  have hcovered : headerChecksum h = headerChecksum (withChecksum h) :=
    headerChecksum_congr fun a ha => (withChecksum_below h ha).symm
  have hstored := place_inside (0x7C, bigEndian 2 (headerChecksum h)) h (k := k.val) (by simp; omega)
    (show 0x7C + k.val < 128 by omega)
  refine hstored.trans ((bigEndian_get _ k).trans ?_)
  rw [hcovered]
  rfl

section fields

variable (name : List Byte) (tag d r : BitVec 32) (c sh : BitVec 16) (v : Byte)

/-- The fields below the checksum at their offsets (30_encoding.md R90). -/
def placements : List Placement :=
  [(0x00, [0]), (0x01, [BitVec.ofNat 8 name.length]), (0x02, name), (0x41, bigEndian 4 tag), (0x53, bigEndian 4 d),
   (0x57, bigEndian 4 r), (0x63, bigEndian 2 c), (0x78, bigEndian 2 sh), (0x7B, [v])]

/-- The block of 41_header_decoder.md R147. -/
def headerOf (fill : Header) : Header := withChecksum ((placements name tag d r c sh v).foldr place fill)

variable {name tag d r c sh v} (hmax : name.length ≤ 63) {fill : Header}

include hmax

theorem rising_placements : Rising (placements name tag d r c sh v) := by
  simp [Rising, placements]
  omega

/-- A byte of a field stands in the block. -/
theorem headerOf_inside {p : Placement} (hp : p ∈ placements name tag d r c sh v) {k : Nat} (hk : k < p.2.length)
    (ha : p.1 + k < 0x7C) :
    headerOf name tag d r c sh v fill ⟨p.1 + k, by omega⟩ = p.2[k] :=
  (withChecksum_below _ ha).trans (foldr_place_inside (rising_placements hmax) hp _ hk _)

theorem headerOf_unlisted {a : HAddr} (ha : UnlistedByte name.length a) :
    headerOf name tag d r c sh v fill a = fill a := by
  unfold UnlistedByte at ha
  have hchecksum : a.val < 0x7C ∨ 0x7E ≤ a.val := by omega
  refine (place_outside _ (by simpa using hchecksum)).trans (foldr_place_outside _ ?_)
  simp [placements]
  omega

theorem headerOf_byte {start : Nat} {b : Byte} (hp : (start, [b]) ∈ placements name tag d r c sh v)
    (hstart : start < 0x7C) : headerOf name tag d r c sh v fill ⟨start, by omega⟩ = b :=
  headerOf_inside hmax hp (k := 0) Nat.one_pos hstart

/-- A big-endian field stands in the block byte by byte. -/
theorem headerOf_value {w n start : Nat} {x : BitVec w}
    (hp : (start, bigEndian n x) ∈ placements name tag d r c sh v) (hend : start + n ≤ 0x7C) (k : Fin n) :
    headerOf name tag d r c sh v fill ⟨start + k.val, by omega⟩ = x.extractLsb' (8 * (n - 1 - k.val)) 8 :=
  (headerOf_inside hmax hp (k := k.val) (by simp) (show start + k.val < 0x7C by omega)).trans (bigEndian_get x k)

theorem headerHolds_headerOf : HeaderHolds (headerOf name tag d r c sh v fill) name tag d r c sh v := by
  have hlength : headerOf name tag d r c sh v fill 0x01 = BitVec.ofNat 8 name.length :=
    headerOf_byte hmax (start := 0x01) (by simp [placements]) (by decide)
  exact {
    marker := headerOf_byte hmax (start := 0x00) (by simp [placements]) (by decide)
    nameLength := by
      rw [hlength, BitVec.toNat_ofNat]
      omega
    nameBytes := fun i hi _ =>
      headerOf_inside hmax (p := (0x02, name)) (by simp [placements]) hi (show 2 + i < 0x7C by omega)
    typeTag := headerOf_value hmax (by simp [placements]) (by decide)
    dataSize := headerOf_value hmax (by simp [placements]) (by decide)
    resourceSize := headerOf_value hmax (by simp [placements]) (by decide)
    commentLength := headerOf_value hmax (by simp [placements]) (by decide)
    secondaryHeaderSize := headerOf_value hmax (by simp [placements]) (by decide)
    version := headerOf_byte hmax (start := 0x7B) (by simp [placements]) (by decide)
    checksum := withChecksum_stored _ }

end fields

end Sys2Proof.Proofs
end

section
/-! SUPPORT. The obligations of 41_header_decoder.md: each settled from the lemmas above. -/

namespace Sys2Proof.Proofs

open Sys2Proof.Machine Sys2Proof.Laws

/-- Settles O18: a header that holds the fields passes every check, and the block with the fields placed and its
checksum stored last holds them. -/
theorem headerThatHoldsFieldsDecodesToThem : Obligations.HeaderThatHoldsFieldsDecodesToThem :=
  fun name tag d r c sh v hmin hmax hv => ⟨fun _ hh => decodeHeader_of_holds hh hmin hmax hv,
    fun fill => ⟨headerOf name tag d r c sh v fill, headerHolds_headerOf hmax, fun _ => headerOf_unlisted hmax⟩⟩

/-- Settles O15, by the equations of the two checks that pass last. -/
theorem decOfAValidHeaderWritesTheRecord : Obligations.DecOfAValidHeaderWritesTheRecord :=
  fun s hph hc h0 hl hu hv hcrc => ⟨nameArray s.regs.hbuf.read (s.regs.hbuf.read 0x01),
    exec_dec_of_decode hph ((decode_eq_decVersion hc h0 ⟨hl, hu⟩).trans (decVersion_of_match hv hcrc)),
    nameArray_get s.regs.hbuf.read (s.regs.hbuf.read 0x01)⟩

/-- Settles O16, by the equation of each check that fails. -/
theorem decRaisesTheFirstErrorThatApplies : Obligations.DecRaisesTheFirstErrorThatApplies := by
  intro s h hph
  refine ⟨fun hlt => ?_, fun hc h0 => ?_, fun hc h0 hn => ?_, fun hc h0 hl hu hv => ?_, fun hc h0 hl hu hv hcrc => ?_⟩
  · exact exec_dec_of_decode hph (decode_of_short hlt)
  · exact exec_dec_of_decode hph (decode_of_marker hc h0)
  · exact exec_dec_of_decode hph (decode_of_nameLength hc h0 fun ⟨hl, hu⟩ => hn.elim (Nat.ne_of_gt hl) hu.not_gt)
  · exact exec_dec_of_decode hph ((decode_eq_decVersion hc h0 ⟨hl, hu⟩).trans (decVersion_of_tooNew hv))
  · exact exec_dec_of_decode hph ((decode_eq_decVersion hc h0 ⟨hl, hu⟩).trans (decVersion_of_mismatch hv hcrc))

/-- Settles O19: of the computed and the stored checksum, which agree before the flip, it changes exactly one. -/
theorem anySingleBitFlipOfAValidHeaderIsRejected : Obligations.AnySingleBitFlipOfAValidHeaderIsRejected := by
  intro h record hok a j ha hj h'
  obtain ⟨-, hcrc, -⟩ := (decodeHeader_eq_ok_iff h record).mp hok
  obtain ⟨e, he, hmismatch⟩ := decodeHeader_of_checksum_ne (checksum_ne_of_flipBit hcrc ha hj)
  exact ⟨e, he, fun h0 hl hu hv => hmismatch ⟨h0, hl, hu, hv⟩⟩

end Sys2Proof.Proofs
end

section
/-! SUPPORT. The segment locator: padding as the way to the next multiple of 128, the largest bases that the field
widths allow, and LOC as one equation per outcome of 42_segment_locator.md R168. -/

namespace Sys2Proof.Proofs

open Sys2Proof.Machine Sys2Proof.Laws

/-! Padding and bases. -/

theorem pad_le (s : Nat) : pad s ≤ 127 := by
  rw [pad_eq]
  omega

/-- No multiple of 128 lies between a length and the length with its padding. -/
theorem add_pad_le_of_dvd {s m : Nat} (hm : 128 ∣ m) (h : s ≤ m) : s + pad s ≤ m := by
  rw [pad_eq]
  omega

/-- From an aligned base on, the next base is the smallest multiple of 128 not below the end of the region. -/
theorem baseAfter_le_of_dvd {base len m : Nat} (hbase : 128 ∣ base) (hm : 128 ∣ m) (h : base + len ≤ m) :
    baseAfter base len ≤ m := by
  have hpad : len + pad len ≤ m - base := add_pad_le_of_dvd (Nat.dvd_sub hm hbase) (by omega)
  rw [baseAfter]
  omega

/-! The largest bases are multiples of 128 themselves (42_segment_locator.md R165). -/

theorem dataBase_le (sh : BitVec 16) : dataBase sh.toNat ≤ 65664 := by
  have hend : 128 + sh.toNat ≤ 65664 := by omega
  exact baseAfter_le_of_dvd (by decide) (by decide) hend

theorem resBase_le (sh : BitVec 16) (d : BitVec 32) : resBase sh.toNat d.toNat ≤ 4295032960 := by
  have hdata := dataBase_le sh
  exact baseAfter_le_of_dvd (dvd_dataBase _) (by decide) (by omega)

theorem commentBase_le (sh : BitVec 16) (d r : BitVec 32) :
    commentBase sh.toNat d.toNat r.toNat ≤ 8590000256 := by
  have hres := resBase_le sh d
  exact baseAfter_le_of_dvd (dvd_resBase _ _) (by decide) (by omega)

/-- An offset register holds every value below 2^34 exactly. -/
theorem offset_toNat_of_lt {b : Nat} (h : b < 2 ^ 34) : (BitVec.ofNat 64 b).toNat = b := by
  rw [BitVec.toNat_ofNat]
  omega

/-! LOC by its outcome. -/

theorem exec_loc_of_locate {s : State} {n : Offset} {r' : Regs} (hph : s.regs.ph = .hdr)
    (h : s.regs.locate n = r') : exec (.loc n) s = .next { s with regs := r' } :=
  (if_pos hph).trans (by rw [h]; rfl)

section locate

variable {r : Regs} {n : Offset}

theorem locate_of_data_tooSmall (hpos : 0 < r.dsize.toNat)
    (hlt : n.toNat < dataBase r.shsize.toNat + r.dsize.toNat) :
    r.locate n = { r with fsize := n, doff := BitVec.ofNat 64 (dataBase r.shsize.toNat) }.raise .tooSmall := by
  rcases locate_cases r n with ⟨-, -, e⟩ | ⟨hd, -⟩ | ⟨hd, -⟩ | ⟨hd, -⟩
  · exact e
  all_goals exact absurd hlt (hd hpos).not_gt

variable (hd : Fits n.toNat (dataBase r.shsize.toNat) r.dsize.toNat)

include hd

theorem locate_of_resource_tooSmall (hpos : 0 < r.rsize.toNat)
    (hlt : n.toNat < resBase r.shsize.toNat r.dsize.toNat + r.rsize.toNat) :
    r.locate n = { r with
      fsize := n
      doff := BitVec.ofNat 64 (dataBase r.shsize.toNat)
      pres := r.pres ||| (if 0 < r.dsize.toNat then Segment.data.flag else 0)
      roff := BitVec.ofNat 64 (resBase r.shsize.toNat r.dsize.toNat) }.raise .tooSmall := by
  rcases locate_cases r n with ⟨hdpos, hdlt, -⟩ | ⟨-, -, -, e⟩ | ⟨-, hr, -⟩ | ⟨-, hr, -⟩
  · exact absurd hdlt (hd hdpos).not_gt
  · exact e
  all_goals exact absurd hlt (hr hpos).not_gt

variable (hr : Fits n.toNat (resBase r.shsize.toNat r.dsize.toNat) r.rsize.toNat)

include hr

theorem locate_of_comment_tooSmall (hpos : 0 < r.clen.toNat)
    (hlt : n.toNat < commentBase r.shsize.toNat r.dsize.toNat r.rsize.toNat + r.clen.toNat) :
    r.locate n = { r with
      fsize := n
      doff := BitVec.ofNat 64 (dataBase r.shsize.toNat)
      pres := r.pres ||| (if 0 < r.dsize.toNat then Segment.data.flag else 0) |||
        (if 0 < r.rsize.toNat then Segment.resource.flag else 0)
      roff := BitVec.ofNat 64 (resBase r.shsize.toNat r.dsize.toNat)
      coff := BitVec.ofNat 64 (commentBase r.shsize.toNat r.dsize.toNat r.rsize.toNat) }.raise .tooSmall := by
  rcases locate_cases r n with ⟨hdpos, hdlt, -⟩ | ⟨-, hrpos, hrlt, -⟩ | ⟨-, -, -, -, e⟩ | ⟨-, -, hc, -⟩
  · exact absurd hdlt (hd hdpos).not_gt
  · exact absurd hrlt (hr hrpos).not_gt
  · exact e
  · exact absurd hlt (hc hpos).not_gt

theorem locate_of_fits
    (hc : Fits n.toNat (commentBase r.shsize.toNat r.dsize.toNat r.rsize.toNat) r.clen.toNat) :
    r.locate n = { r with
      fsize := n
      doff := BitVec.ofNat 64 (dataBase r.shsize.toNat)
      pres := r.pres ||| (if 0 < r.dsize.toNat then Segment.data.flag else 0) |||
        (if 0 < r.rsize.toNat then Segment.resource.flag else 0) |||
        (if 0 < r.clen.toNat then Segment.comment.flag else 0)
      roff := BitVec.ofNat 64 (resBase r.shsize.toNat r.dsize.toNat)
      coff := BitVec.ofNat 64 (commentBase r.shsize.toNat r.dsize.toNat r.rsize.toNat)
      ph := .done } := by
  rcases locate_cases r n with ⟨hdpos, hdlt, -⟩ | ⟨-, hrpos, hrlt, -⟩ | ⟨-, -, hcpos, hclt, -⟩ | ⟨-, -, -, e⟩
  · exact absurd hdlt (hd hdpos).not_gt
  · exact absurd hrlt (hr hrpos).not_gt
  · exact absurd hclt (hc hcpos).not_gt
  · exact e

end locate

end Sys2Proof.Proofs
end

section
/-! SUPPORT. The obligations of 42_segment_locator.md: each settled from the lemmas above. -/

namespace Sys2Proof.Proofs

open Sys2Proof.Machine Sys2Proof.Laws

/-- Settles O28: `s + pad s` is a multiple of 128, and by the closed form no smaller one is at least `s`. -/
theorem padReachesTheNextMultipleOf128 : Obligations.PadReachesTheNextMultipleOf128 :=
  fun s => ⟨pad_eq s, pad_le s, dvd_add_pad s, fun _ hm h => add_pad_le_of_dvd hm h⟩

/-- Settles O29: each base is at most the multiple of 128 above the largest end of the region before it, and the
largest field values reach it. -/
theorem basesAndEndsNeverOverflow : Obligations.BasesAndEndsNeverOverflow := by
  refine ⟨fun sh c d r => ?_, by decide, by decide, by decide, by decide⟩
  have hdata := dataBase_le sh
  have hres := resBase_le sh d
  have hcomment := commentBase_le sh d r
  exact ⟨hdata, hres, hcomment, by omega, by omega, by omega, offset_toNat_of_lt (by omega),
    offset_toNat_of_lt (by omega), offset_toNat_of_lt (by omega)⟩

/-- Settles O30: no check of LOC stops it, so it writes the whole layout. -/
theorem locOfFittingSegmentsWritesTheLayout : Obligations.LocOfFittingSegmentsWritesTheLayout := by
  intro n s sh d r c dBase rBase cBase hph hd hr hc
  exact exec_loc_of_locate hph (locate_of_fits hd hr hc)

/-- Settles O31, by the equation of each segment at which LOC stops. -/
theorem locRaisesTooSmallAtTheFirstSegmentThatDoesNotFit :
    Obligations.LocRaisesTooSmallAtTheFirstSegmentThatDoesNotFit := by
  intro n s sh d r c dBase rBase cBase dFlag rFlag hph
  refine ⟨fun hpos hlt => ?_, fun hd hpos hlt => ?_, fun hd hr hpos hlt => ?_⟩
  · exact exec_loc_of_locate hph (locate_of_data_tooSmall hpos hlt)
  · exact exec_loc_of_locate hph (locate_of_resource_tooSmall hd hpos hlt)
  · exact exec_loc_of_locate hph (locate_of_comment_tooSmall hd hr hpos hlt)

end Sys2Proof.Proofs
end

section
/-! SUPPORT. Refusal from the command's side: a rejected command and a refused word by what they do, and the phase and
the status that DEC and LOC end with. -/

namespace Sys2Proof.Proofs

open Sys2Proof.Machine Sys2Proof.Laws

/-- A rejected command sets PERR, and answers 0 where its `op` is that of RD (43_control_commands.md R182). -/
theorem exec_of_rejects {i : Instr} {s : State} (h : Rejects s.regs i) :
    exec i s = .next { s with
      regs := s.regs.refuse
      response := if i.op = 5#4 then some 0 else s.response } := by
  cases i with
  | rst => exact h.elim
  | ldb b =>
    rcases execLdb_cases b s with ⟨a, hph, hcnt, -⟩ | ⟨-, e⟩
    · exact absurd h (Accepts.ldb a b hph hcnt).not_rejects
    · exact e
  | dec => exact if_neg h
  | loc n => exact if_neg h
  | rd x =>
    rcases execRd_cases x s with ⟨v, hv, -⟩ | ⟨-, e⟩
    · exact absurd h (Accepts.rd x v hv).not_rejects
    · exact e

/-- A refused word of a legal command is one whose command is rejected. Unlike `refuses_iff` this needs no bound on
HCNT (log 8). -/
theorem rejects_of_refuses {r : Regs} {w : CmdWord} {i : Instr} (h : r.Refuses w) (hw : decodeWord w = .ok i) :
    Rejects r i := by
  rcases decodeWord_cases w with ⟨ho, ha, e⟩ | ⟨-, -, e⟩ | ⟨ho, ha, e⟩ | ⟨-, -, e⟩ | ⟨ho, ha, e⟩ | ⟨-, -, e⟩ |
    ⟨ho, e⟩ | ⟨ho, ha, e⟩ | ⟨-, -, e⟩ | ⟨-, e⟩
  all_goals cases e.symm.trans hw
  · exact (refuses_rst r ho).mp h ha
  · have hrej : r.ph ≠ .load ∨ r.hcnt = 128 := ((refuses_ldb r ho).mp h).resolve_left (not_not.mpr ha)
    exact hrej.imp_right fun hc => by simp [hc]
  · exact ((refuses_dec r ho).mp h).resolve_left (not_not.mpr ha)
  · exact (refuses_loc r ho).mp h
  · exact ((refuses_rd r ho).mp h).resolve_left (not_not.mpr ha)

/-- The step that refuses a word, whether for its bits or for its command. -/
theorem step_of_refuses {s : State} {w : CmdWord} {rest : List PortInput} (hin : s.inputs = .command w :: rest)
    (h : s.regs.Refuses w) :
    step s = .next ⟨s.regs.refuse, rest, if opField w = 5#4 then some 0 else none⟩ := by
  cases hw : decodeWord w with
  | ok i =>
    have hop : opField w = i.op := ((decodeWord_eq_ok_iff (wf_of_decodeWord hw) w).mp hw).1
    rw [step_of_decodeWord hin hw, exec_of_rejects (s := s.take rest) (rejects_of_refuses h hw), hop]
    rfl
  | error e =>
    have hstep : step s = .next ((s.take rest).refuseWord e) := by simp [step, nextInput_cons hin, hw]
    rw [hstep, refuseWord_eq]
    simp [eq_rdArg_iff hw]

/-- DEC ends in HDR with STATUS kept, or in FAIL with the code of one of its errors (41_header_decoder.md R148,
60_exceptions.md R191). -/
theorem decode_ph_status (r : Regs) :
    (r.decode.ph = .hdr ∧ r.decode.status = r.status) ∨
    (r.decode.ph = .fail ∧
      (r.decode.status = 3 ∨ r.decode.status = 4 ∨ r.decode.status = 5 ∨ r.decode.status = 6)) := by
  rcases decode_cases r with ⟨-, e⟩ | ⟨-, -, e⟩ | ⟨-, -, -, -, -, e⟩ | ⟨-, -, -, -, -, -, e⟩ |
    ⟨-, -, -, -, -, -, e⟩ <;> rw [e]
  · exact .inr ⟨rfl, .inl rfl⟩
  · exact .inr ⟨rfl, .inr (.inl rfl)⟩
  · exact .inr ⟨rfl, .inr (.inr (.inl rfl))⟩
  · exact .inr ⟨rfl, .inr (.inr (.inr rfl))⟩
  · exact .inl ⟨rfl, rfl⟩

/-- LOC ends in DONE with STATUS kept, or in FAIL with the code of TooSmall (42_segment_locator.md R168,
60_exceptions.md R191). -/
theorem locate_ph_status (r : Regs) (n : Offset) :
    ((r.locate n).ph = .done ∧ (r.locate n).status = r.status) ∨
    ((r.locate n).ph = .fail ∧ (r.locate n).status = 3) := by
  rcases locate_cases r n with ⟨-, -, e⟩ | ⟨-, -, -, e⟩ | ⟨-, -, -, -, e⟩ | ⟨-, -, -, e⟩ <;> rw [e]
  · exact .inr ⟨rfl, rfl⟩
  · exact .inr ⟨rfl, rfl⟩
  · exact .inr ⟨rfl, rfl⟩
  · exact .inl ⟨rfl, rfl⟩

end Sys2Proof.Proofs
end

section
/-! SUPPORT. The obligations of 43_control_commands.md: each settled from the lemmas above. -/

namespace Sys2Proof.Proofs

open Sys2Proof.Machine Sys2Proof.Laws

/-- Settles O7: one equation for the step of a refused word, and PERR kept by what a step that is no reset can do. -/
theorem refusedCommandSetsPerrAndNothingElse : Obligations.RefusedCommandSetsPerrAndNothingElse := by
  refine ⟨fun s w rest hin href => ⟨_, step_of_refuses hin href, rfl, fun hop => if_pos hop⟩,
    fun s t i rest hin hi hperr h => ?_⟩
  rcases step_cases_of_not_resets hin hi h with ⟨j, hj, -, ha⟩ | hr
  · exact ha.perr.mpr ⟨hperr, hj⟩
  · rw [hr, refuseRegs_perr]

/-- Settles O34, command by command: the equation of the accepted command with the phase and status it ends in, and the
equation of a rejected one. -/
theorem phaseMovesOnlyAsTheTableSays : Obligations.PhaseMovesOnlyAsTheTableSays := by
  intro s refused
  refine ⟨⟨_, rfl, rfl, rfl⟩, fun b => ⟨fun ⟨hph, hcnt⟩ => ?ldb, exec_of_rejects (i := .ldb b)⟩, fun hph => ?dec,
    exec_of_rejects (i := .dec), fun n => ⟨fun hph => ?loc, exec_of_rejects (i := .loc n)⟩, fun x => ?rd⟩
  case ldb => exact ⟨_, execLdb_of_room (i := ⟨_, hcnt⟩) hph rfl b, hph, rfl, rfl⟩
  case dec => exact ⟨_, exec_dec_of_decode hph rfl, decode_perr s.regs, decode_ph_status s.regs⟩
  case loc => exact ⟨_, exec_loc_of_locate hph rfl, locate_perr s.regs n, locate_ph_status s.regs n⟩
  case rd =>
    rcases execRd_cases x s with ⟨v, -, e⟩ | ⟨-, e⟩
    · exact ⟨_, e, rfl, .inl rfl⟩
    · exact ⟨_, e, rfl, .inr rfl⟩

end Sys2Proof.Proofs
end

section
/-! SUPPORT. DEC against the function `decode`, LOC against the function `locate`, and what the registers owe the host
(60_exceptions.md R206) along every command. -/

namespace Sys2Proof.Proofs

open Sys2Proof.Machine Sys2Proof.Laws

/-! DEC and `decode`. -/

/-- The registers after DEC show this answer of `decode` (41_header_decoder.md R148, 60_exceptions.md R192). -/
def ShowsDecoded (r : Regs) : Except HeaderFailure HeaderRecord → Prop
  | .ok record => r.ph = .hdr ∧ r.status = 0 ∧ r.recordView = record
  | .error e => r.ph = .fail ∧ r.status = config.errCode e.error ∧ e.ShownIn r ∧ r.NoRecord

/-- Once the block is loaded, the running checksum is the one that `decode` recomputes. -/
theorem crc_eq_headerChecksum {r : Regs} (h : r.Inv) (hc : r.hcnt = 128) : r.crc = headerChecksum r.hbuf.read := by
  have hrun := h.running
  rw [hc] at hrun
  exact hrun

theorem recordView_setRecord (r : Regs) (h : Header) : (r.setRecord h).recordView = extractRecord h := by
  simp [Regs.recordView, extractRecord, nameArray_take]

theorem decode_of_format {r : Regs} (hc : 128 ≤ r.hcnt.toNat)
    (hf : r.hbuf.read 0x00 ≠ 0 ∨ ¬ (1 ≤ (r.hbuf.read 0x01).toNat ∧ (r.hbuf.read 0x01).toNat ≤ 63)) :
    r.decode = r.raise .notContainerFormat := by
  by_cases h0 : r.hbuf.read 0x00 = 0
  · exact decode_of_nameLength hc h0 (hf.resolve_left (not_not.mpr h0))
  · exact decode_of_marker hc h0

/-- DEC of a loaded block ends as `decode` of the block says, at whichever step that stops. -/
theorem decode_showsDecoded {r : Regs} (h : r.Inv) (hph : r.ph = .load) (hc : r.hcnt = 128) :
    ShowsDecoded r.decode (decodeHeader r.hbuf.read) := by
  have hcount : 128 ≤ r.hcnt.toNat := (hcnt_eq_128_iff h.count).mp hc
  have hmax : r.maxver.toNat = 0x81 := congrArg BitVec.toNat h.maximum
  have hcrc : r.crc = headerChecksum r.hbuf.read := crc_eq_headerChecksum h hc
  have hstatus : r.status = 0 := h.statusFail.mpr (by simp [hph])
  obtain ⟨hverseen, hcrcst⟩ := h.notDecoded hph
  obtain ⟨hrecord, -⟩ := h.noRecord (.inl hph)
  rcases decodeHeader_cases r.hbuf.read with ⟨hf, e⟩ | ⟨h0, hl, hu, hv, e⟩ | ⟨h0, hl, hu, hv, hne, e⟩ |
    ⟨h0, hl, hu, hv, heq, e⟩
  · rw [e, decode_of_format hcount hf]
    exact ⟨rfl, rfl, ⟨hverseen, hcrcst⟩, hrecord⟩
  · rw [e, decode_eq_decVersion hcount h0 ⟨hl, hu⟩, decVersion_of_tooNew (hmax ▸ hv)]
    exact ⟨rfl, rfl, ⟨rfl, h.maximum, hcrcst⟩, hrecord⟩
  · rw [e, decode_eq_decVersion hcount h0 ⟨hl, hu⟩, decVersion_of_mismatch (hmax ▸ hv) (hcrc ▸ hne)]
    exact ⟨rfl, rfl, ⟨rfl, hcrc, rfl, hne⟩, hrecord⟩
  · rw [e, decode_eq_decVersion hcount h0 ⟨hl, hu⟩, decVersion_of_match (hmax ▸ hv) (hcrc.trans heq)]
    exact ⟨rfl, hstatus, recordView_setRecord _ _⟩

/-! LOC and `locate`. -/

/-- The layout registers hold the part of a layout that `locate` reached, and their reset values beyond it. -/
def HoldsPart (r : Regs) (l : Layout) : Prop :=
  l.dataBase = r.doff.toNat ∧ l.resBase.getD 0 = r.roff.toNat ∧ l.commentBase.getD 0 = r.coff.toNat ∧
    l.present = r.pres

/-- The registers after LOC show this answer of `locate` (42_segment_locator.md R163, R168). -/
def ShowsLocated (r : Regs) : Except Layout Layout → Prop
  | .ok l => r.ph = .done ∧ r.status = 0 ∧ r.layoutView = l
  | .error l => r.ph = .fail ∧ r.status = 3 ∧ HoldsPart r l

theorem locate_fsize_maxver (r : Regs) (n : Offset) : (r.locate n).fsize = n ∧ (r.locate n).maxver = r.maxver := by
  rcases locate_cases r n with ⟨-, -, e⟩ | ⟨-, -, -, e⟩ | ⟨-, -, -, -, e⟩ | ⟨-, -, -, e⟩ <;> rw [e] <;> exact ⟨rfl, rfl⟩

/-- LOC of a decoded header ends as `locate` of its lengths says, at whichever segment that stops. -/
theorem locate_showsLocated {r : Regs} (h : r.Inv) (hph : r.ph = .hdr) (n : Offset) :
    ShowsLocated (r.locate n)
      (locate r.shsize.toNat r.dsize.toNat r.rsize.toNat r.clen.toNat n.toNat) := by
  have hstatus : r.status = 0 := h.statusFail.mpr (by simp [hph])
  obtain ⟨-, hpres, -, hroff, hcoff⟩ := h.notLocated hph
  have hdata := offset_toNat_of_lt ((dataBase_le r.shsize).trans_lt (by decide))
  have hres := offset_toNat_of_lt ((resBase_le r.shsize r.dsize).trans_lt (by decide))
  have hcomment := offset_toNat_of_lt ((commentBase_le r.shsize r.dsize r.rsize).trans_lt (by decide))
  rcases locateFunction_cases r.shsize.toNat r.dsize.toNat r.rsize.toNat r.clen.toNat n.toNat with
    ⟨hpos, hlt, e⟩ | ⟨hd, hpos, hlt, e⟩ | ⟨hd, hr, hpos, hlt, e⟩ | ⟨hd, hr, hc, e⟩
  · rw [e, locate_of_data_tooSmall hpos hlt]
    exact ⟨rfl, rfl, hdata.symm, by simp [hroff], by simp [hcoff], hpres.symm⟩
  · rw [e, locate_of_resource_tooSmall hd hpos hlt, hpres]
    exact ⟨rfl, rfl, hdata.symm, hres.symm, by simp [hcoff], rfl⟩
  · rw [e, locate_of_comment_tooSmall hd hr hpos hlt, hpres]
    exact ⟨rfl, rfl, hdata.symm, hres.symm, hcomment.symm, rfl⟩
  · rw [e, locate_of_fits hd hr hc, hpres]
    exact ⟨rfl, hstatus, by simp only [Regs.layoutView, hdata, hres, hcomment]⟩

/-! What the registers owe the host. -/

/-- PERR is in nothing the registers owe the host. -/
theorem faithful_refuse {r : Regs} (h : r.Faithful) : r.refuse.Faithful :=
  ⟨h.record, h.layout, h.layoutPart, h.failure⟩

/-- In phase LOAD the registers owe the host nothing yet. -/
theorem faithful_of_load {r : Regs} (hph : r.ph = .load) : r.Faithful where
  record := by simp [Regs.Decoded, Regs.FailedInLoc, hph]
  layout := by simp [hph]
  layoutPart := by simp [Regs.FailedInLoc, hph]
  failure := by simp [Regs.FailedInDec, hph]

theorem faithful_of_hdr {r : Regs} (hph : r.ph = .hdr) (hrecord : decodeHeader r.hbuf.read = .ok r.recordView) :
    r.Faithful where
  record := fun _ => hrecord
  layout := by simp [hph]
  layoutPart := by simp [Regs.FailedInLoc, hph]
  failure := by simp [Regs.FailedInDec, hph]

theorem faithful_of_done {r : Regs} (hph : r.ph = .done) (hrecord : decodeHeader r.hbuf.read = .ok r.recordView)
    (hlayout : r.located = .ok r.layoutView) : r.Faithful where
  record := fun _ => hrecord
  layout := fun _ => hlayout
  layoutPart := by simp [Regs.FailedInLoc, hph]
  failure := by simp [Regs.FailedInDec, hph]

/-- A failure is DEC's or LOC's, by the code and the count. -/
theorem not_failedInDec_of_failedInLoc {r : Regs} (h : r.FailedInLoc) : ¬ r.FailedInDec := by
  obtain ⟨-, hstatus, hcnt⟩ := h
  rintro ⟨-, hlt⟩
  simpa [hcnt] using hlt hstatus

theorem faithful_of_failedInDec {r : Regs} (hfail : r.FailedInDec)
    (h : (r.hcnt.toNat < 128 ∧ r.status = 3 ∧ r.verseen = 0 ∧ r.crcst = 0) ∨
      (r.hcnt = 128 ∧
        ∃ e, decodeHeader r.hbuf.read = .error e ∧ r.status = config.errCode e.error ∧ e.ShownIn r)) :
    r.Faithful where
  record := by
    rintro (hph | hph | hloc)
    · exact nomatch hfail.1.symm.trans hph
    · exact nomatch hfail.1.symm.trans hph
    · exact absurd hfail (not_failedInDec_of_failedInLoc hloc)
  layout := fun hph => nomatch hfail.1.symm.trans hph
  layoutPart := fun hloc => absurd hfail (not_failedInDec_of_failedInLoc hloc)
  failure := fun _ => h

theorem faithful_of_failedInLoc {r : Regs} (hfail : r.FailedInLoc)
    (hrecord : decodeHeader r.hbuf.read = .ok r.recordView) {l : Layout} (hl : r.located = .error l)
    (hpart : HoldsPart r l) : r.Faithful where
  record := fun _ => hrecord
  layout := fun hph => nomatch hfail.1.symm.trans hph
  layoutPart := fun _ => ⟨l, hl, hpart⟩
  failure := fun hdec => absurd hdec (not_failedInDec_of_failedInLoc hfail)

theorem decode_hcnt_maxver (r : Regs) : r.decode.hcnt = r.hcnt ∧ r.decode.maxver = r.maxver := by
  rcases decode_cases r with ⟨-, e⟩ | ⟨-, -, e⟩ | ⟨-, -, -, -, -, e⟩ | ⟨-, -, -, -, -, -, e⟩ |
    ⟨-, -, -, -, -, -, e⟩ <;> rw [e] <;> exact ⟨rfl, rfl⟩

/-- The code 3 is that of TooSmall, which `decode` never answers (41_header_decoder.md R140). -/
theorem errCode_headerFailure_ne (e : HeaderFailure) : config.errCode e.error ≠ 3 := by
  intro h
  have h' : e.error = .tooSmall := errCode_injective h
  cases e <;> exact nomatch h'

/-- DEC raises TooSmall before `decode` has a say, or ends as `decode` says. -/
theorem faithful_decode {r : Regs} (h : r.Inv) (hph : r.ph = .load) : r.decode.Faithful := by
  rcases h.count.lt_or_eq with hlt | hcount
  · rw [decode_of_short hlt]
    exact faithful_of_failedInDec ⟨rfl, fun _ => hlt⟩ (.inl ⟨hlt, rfl, h.notDecoded hph⟩)
  · have hc : r.hcnt = 128 := (hcnt_eq_128_iff h.count).mpr hcount.ge
    have hshows := decode_showsDecoded h hph hc
    rw [← decode_hbuf r] at hshows
    cases hd : decodeHeader r.decode.hbuf.read with
    | ok record =>
      rw [hd] at hshows
      obtain ⟨hhdr, -, rfl⟩ := hshows
      exact faithful_of_hdr hhdr hd
    | error e =>
      rw [hd] at hshows
      obtain ⟨hfail, hstatus, hshown, -⟩ := hshows
      exact faithful_of_failedInDec ⟨hfail, fun h3 => absurd (hstatus.symm.trans h3) (errCode_headerFailure_ne e)⟩
        (.inr ⟨(decode_hcnt_maxver r).1.trans hc, e, hd, hstatus, hshown⟩)

theorem SameHeaderAndRecord.recordView {r r' : Regs} (h : SameHeaderAndRecord r r') : r'.recordView = r.recordView := by
  obtain ⟨-, -, -, -, -, hnlen, hname, htag, hdsize, hrsize, hclen, hshsize⟩ := h
  simp only [Regs.recordView, hnlen, hname, htag, hdsize, hrsize, hclen, hshsize]

theorem located_locate (r : Regs) (n : Offset) :
    (r.locate n).located = locate r.shsize.toNat r.dsize.toNat r.rsize.toNat r.clen.toNat n.toNat := by
  obtain ⟨-, -, -, -, -, -, -, -, hdsize, hrsize, hclen, hshsize⟩ := sameHeaderAndRecord_locate r n
  rw [Regs.located, hdsize, hrsize, hclen, hshsize, (locate_fsize_maxver r n).1]

/-- LOC keeps the record true, since it writes none of it, and ends as `locate` says. -/
theorem faithful_locate {r : Regs} (h : r.Inv) (hf : r.Faithful) (hph : r.ph = .hdr) (n : Offset) :
    (r.locate n).Faithful := by
  have hsame := sameHeaderAndRecord_locate r n
  have hcnt : (r.locate n).hcnt = 128 := hsame.2.1.trans (h.record (.inl hph)).1
  have hrecord : decodeHeader (r.locate n).hbuf.read = .ok (r.locate n).recordView := by
    rw [locate_hbuf, hsame.recordView, hf.record (.inl hph)]
  have hshows := locate_showsLocated h hph n
  rw [← located_locate] at hshows
  cases hl : (r.locate n).located with
  | ok l =>
    rw [hl] at hshows
    obtain ⟨hdone, -, rfl⟩ := hshows
    exact faithful_of_done hdone hrecord hl
  | error l =>
    rw [hl] at hshows
    obtain ⟨hfail, hstatus, hpart⟩ := hshows
    exact faithful_of_failedInLoc ⟨hfail, hstatus, hcnt⟩ hrecord hl hpart

theorem Accepts.faithful {r r' : Regs} {i : Instr} (ha : Accepts r i r') (h : r.Inv) (hf : r.Faithful) :
    r'.Faithful := by
  cases ha with
  | rst => exact faithful_reset
  | ldb _ _ hph => exact faithful_of_load hph
  | dec hph => exact faithful_decode h hph
  | loc n hph => exact faithful_locate h hf hph n
  | rd => exact hf

theorem sound_refuse {r : Regs} (h : r.Sound) : r.refuse.Sound :=
  ⟨h.memory, inv_refuse h.inv, faithful_refuse h.faithful⟩

theorem Accepts.sound {r r' : Regs} {i : Instr} (ha : Accepts r i r') (h : r.Sound) : r'.Sound :=
  ⟨ha.wf h.memory, ha.inv h.memory h.inv, ha.faithful h.inv h.faithful⟩

end Sys2Proof.Proofs
end

section
/-! SUPPORT. How a pass ends: what a step that is no reset does to phase, STATUS and MAXVER; and that no command tests
PERR. -/

namespace Sys2Proof.Proofs

open Sys2Proof.Machine Sys2Proof.Laws

/-- From `r` to `r'` STATUS is written only by a failure of a pass that has not ended, and the phase of a pass that has
ended and MAXVER stay (60_exceptions.md R195, 10_state.md R25, R28). -/
def EndsPassOnce (r r' : Regs) : Prop :=
  (r.ph = .fail → r'.ph = .fail ∧ r'.status = r.status) ∧
  (r'.status ≠ r.status → r.ph ≠ .fail ∧ r'.ph = .fail ∧
    (r'.status = 3 ∨ r'.status = 4 ∨ r'.status = 5 ∨ r'.status = 6)) ∧
  (r.ph = .done → r'.ph = .done) ∧ r'.maxver = r.maxver

theorem endsPassOnce_of_same {r r' : Regs} (hph : r'.ph = r.ph) (hstatus : r'.status = r.status)
    (hmax : r'.maxver = r.maxver) : EndsPassOnce r r' :=
  ⟨fun h => ⟨hph.trans h, hstatus⟩, absurd hstatus, hph.trans, hmax⟩

/-- In the middle of a pass STATUS is kept, or a failure writes its code. -/
theorem endsPassOnce_of_running {r r' : Regs} (hfail : r.ph ≠ .fail) (hdone : r.ph ≠ .done)
    (h : r'.status = r.status ∨
      (r'.ph = .fail ∧ (r'.status = 3 ∨ r'.status = 4 ∨ r'.status = 5 ∨ r'.status = 6)))
    (hmax : r'.maxver = r.maxver) : EndsPassOnce r r' :=
  ⟨(absurd · hfail), fun hne => ⟨hfail, h.resolve_left hne⟩, (absurd · hdone), hmax⟩

theorem Accepts.endsPassOnce {r r' : Regs} {j : Instr} (h : Accepts r j r') (hj : j ≠ .rst) : EndsPassOnce r r' := by
  cases h with
  | rst => exact absurd rfl hj
  | ldb => exact endsPassOnce_of_same rfl rfl rfl
  | dec hph =>
    exact endsPassOnce_of_running (by simp [hph]) (by simp [hph]) ((decode_ph_status r).imp_left And.right)
      (decode_hcnt_maxver r).2
  | loc n hph =>
    exact endsPassOnce_of_running (by simp [hph]) (by simp [hph])
      ((locate_ph_status r n).imp And.right (And.imp_right .inl)) (locate_fsize_maxver r n).2
  | rd => exact endsPassOnce_of_same rfl rfl rfl

/-! The same registers with another PERR. -/

/-- The four checks of DEC are the same conditions with another PERR, and no branch writes it. -/
theorem decode_setPerr (r : Regs) (p : Bool) : { r with perr := p }.decode = { r.decode with perr := p } := by
  unfold Regs.decode Regs.decVersion Regs.decChecksum
  dsimp only
  split_ifs <;> rfl

theorem locate_setPerr (r : Regs) (p : Bool) (n : Offset) :
    { r with perr := p }.locate n = { r.locate n with perr := p } := by
  rcases locate_cases r n with ⟨hpos, hlt, e⟩ | ⟨hd, hpos, hlt, e⟩ | ⟨hd, hr, hpos, hlt, e⟩ | ⟨hd, hr, hc, e⟩
  all_goals rw [e]
  · exact locate_of_data_tooSmall (r := { r with perr := p }) hpos hlt
  · exact locate_of_resource_tooSmall (r := { r with perr := p }) hd hpos hlt
  · exact locate_of_comment_tooSmall (r := { r with perr := p }) hd hr hpos hlt
  · exact locate_of_fits (r := { r with perr := p }) hd hr hc

theorem value_setPerr (r : Regs) (p : Bool) {x : Reg} (hx : x ≠ .perr) :
    { r with perr := p }.value x = r.value x := by
  cases x with
  | perr => exact absurd rfl hx
  | _ => rfl

end Sys2Proof.Proofs
end

section
/-! SUPPORT. The obligations of 60_exceptions.md: each settled from the lemmas above. -/

namespace Sys2Proof.Proofs

open Sys2Proof.Machine Sys2Proof.Laws

/-- Settles O41: `step_keeps` with soundness as one predicate, which DEC and LOC keep by agreeing with `decode` and
`locate`. -/
theorem stepKeepsTheRegistersTrueToTheHeader : Obligations.StepKeepsTheRegistersTrueToTheHeader :=
  fun _ _ hs h => step_keeps resetStateIsSound (fun _ => sound_refuse) (fun _ _ _ hr ha => ha.sound hr) h hs

/-- Settles O17: with the block loaded, the running checksum is the recomputed one, and the checks are the same. -/
theorem decAgreesWithTheFunctionDecode : Obligations.DecAgreesWithTheFunctionDecode :=
  fun _ hinv hph hc => ⟨_, exec_dec_of_decode hph rfl, decode_showsDecoded hinv hph hc⟩

/-- Settles O32: before LOC the layout registers are at reset, and no base overflows its register. -/
theorem locAgreesWithTheFunctionLocate : Obligations.LocAgreesWithTheFunctionLocate :=
  fun n s hinv hph =>
    ⟨_, exec_loc_of_locate hph rfl, (locate_fsize_maxver s.regs n).1, locate_showsLocated hinv hph n⟩

/-- Settles O35, by what a step that is no reset can do: accept a command other than RST, or refuse its word. -/
theorem statusIsWrittenOncePerPass : Obligations.StatusIsWrittenOncePerPass := by
  intro s t i rest hin hi h
  rcases step_cases_of_not_resets hin hi h with ⟨j, hj, -, ha⟩ | hr
  · exact ha.endsPassOnce hj
  · rw [hr]
    exact endsPassOnce_of_same rfl rfl rfl

/-- Settles O37, command by command: what decides acceptance and what the accepted command writes do not depend on
PERR. -/
theorem perrInfluencesNothingElse : Obligations.PerrInfluencesNothingElse := by
  intro i s p
  cases i with
  | rst => exact ⟨_, _, rfl, rfl, rfl, rfl, fun _ => rfl⟩
  | ldb b =>
    rcases execLdb_cases b s with ⟨a, hph, hcnt, e⟩ | ⟨hrej, e⟩
    · exact ⟨_, _, e, execLdb_of_room (s := s.setRegs { s.regs with perr := p }) hph hcnt b, rfl, rfl, fun _ => rfl⟩
    · exact ⟨_, _, e, exec_of_rejects (i := .ldb b) hrej, rfl, rfl, fun _ => rfl⟩
  | dec =>
    rcases execDec_cases s with ⟨hph, e⟩ | ⟨hrej, e⟩
    · exact ⟨_, _, e, exec_dec_of_decode hph (decode_setPerr s.regs p), rfl, rfl, fun _ => rfl⟩
    · exact ⟨_, _, e, exec_of_rejects (i := .dec) hrej, rfl, rfl, fun _ => rfl⟩
  | loc n =>
    rcases execLoc_cases n s with ⟨hph, e⟩ | ⟨hrej, e⟩
    · exact ⟨_, _, e, exec_loc_of_locate hph (locate_setPerr s.regs p n), rfl, rfl, fun _ => rfl⟩
    · exact ⟨_, _, e, exec_of_rejects (i := .loc n) hrej, rfl, rfl, fun _ => rfl⟩
  | rd x =>
    by_cases hx : x = .perr
    · subst hx
      exact ⟨_, _, rfl, rfl, rfl, rfl, (absurd rfl ·)⟩
    · have hv := value_setPerr s.regs p hx
      rcases execRd_cases x s with ⟨v, hsome, e⟩ | ⟨hrej, e⟩
      · exact ⟨_, _, e, exec_rd_of_value (hv.trans hsome), rfl, rfl, fun _ => rfl⟩
      · exact ⟨_, _, e, exec_of_rejects (i := .rd x) (hv.trans hrej), rfl, rfl, fun _ => rfl⟩

end Sys2Proof.Proofs
end

section
/-! SUPPORT. Totality of the step, runs of several steps, which header bytes `decode` reads, and the two halves of a
pass: from RST to DEC, and LOC after it. -/

namespace Sys2Proof.Proofs

open Sys2Proof.Machine Sys2Proof.Laws

/-! Every input ends in a next state. -/

/-- Every command ends in a next state, whether accepted or rejected, and takes nothing from the queue. -/
theorem exists_exec_eq_next (i : Instr) (s : State) : ∃ t : State, exec i s = .next t ∧ t.inputs = s.inputs := by
  cases i with
  | rst => exact ⟨_, rfl, rfl⟩
  | ldb b => rcases execLdb_cases b s with ⟨_, -, -, e⟩ | ⟨-, e⟩ <;> exact ⟨_, e, rfl⟩
  | dec => rcases execDec_cases s with ⟨-, e⟩ | ⟨-, e⟩ <;> exact ⟨_, e, rfl⟩
  | loc n => rcases execLoc_cases n s with ⟨-, e⟩ | ⟨-, e⟩ <;> exact ⟨_, e, rfl⟩
  | rd x => rcases execRd_cases x s with ⟨_, -, e⟩ | ⟨-, e⟩ <;> exact ⟨_, e, rfl⟩

theorem step_hardReset {s : State} {rest : List PortInput} (hin : s.inputs = .hardReset :: rest) :
    step s = .next ((s.take rest).setRegs Regs.reset) := by
  simp [step, nextInput_cons hin, State.hardReset]

theorem step_of_illegal {s : State} {w : CmdWord} {rest : List PortInput} {e : IllegalWord}
    (hin : s.inputs = .command w :: rest) (hw : decodeWord w = .error e) :
    step s = .next ((s.take rest).refuseWord e) := by
  simp [step, nextInput_cons hin, hw]

theorem exists_step_eq_next (s : State) : ∃ t : State, step s = .next t ∧ t.inputs = s.inputs.tail := by
  match hin : s.inputs with
  | [] => exact ⟨s, step_of_no_input hin, hin⟩
  | .hardReset :: rest => exact ⟨_, step_hardReset hin, rfl⟩
  | .command w :: rest =>
    cases hw : decodeWord w with
    | ok i =>
      obtain ⟨t, he, hinputs⟩ := exists_exec_eq_next i (s.take rest)
      exact ⟨t, (step_of_decodeWord hin hw).trans he, hinputs⟩
    | error e => exact ⟨_, step_of_illegal hin hw, by rw [refuseWord_eq]; rfl⟩

/-! Runs of several steps. -/

/-- A run goes on from where its first `k` steps end. -/
theorem run_add_of_run {k : Nat} {s u : State} (h : Host.Core.run core k s = .next u) (m : Nat) :
    Host.Core.run core (k + m) s = Host.Core.run core m u := by
  induction k generalizing s with
  | zero =>
    obtain rfl : s = u := Host.Outcome.next.inj h
    rw [Nat.zero_add]
  | succ k ih =>
    obtain ⟨v, hv, -⟩ := exists_step_eq_next s
    rw [run_succ_of_step hv] at h
    rw [Nat.add_right_comm, run_succ_of_step hv, ih h]

/-- What every step keeps of the registers, a run keeps. -/
theorem run_keeps {P : Regs → Prop} (hstep : ∀ s t : State, P s.regs → step s = .next t → P t.regs) {k : Nat}
    {s t : State} (h : Host.Core.run core k s = .next t) (hs : P s.regs) : P t.regs := by
  induction k generalizing s with
  | zero =>
    obtain rfl : s = t := Host.Outcome.next.inj h
    exact hs
  | succ k ih =>
    obtain ⟨v, hv, -⟩ := exists_step_eq_next s
    exact ih ((run_succ_of_step hv k).symm.trans h) (hstep s v hs hv)

/-! Which header bytes `decode` reads. -/

theorem extractRecord_congr {h h' : Header} (hk : ∀ a : HAddr, a.val < 126 → h a = h' a) :
    extractRecord h = extractRecord h' := by
  have hname : fieldNameByte h = fieldNameByte h' :=
    funext fun i => hk _ (show 2 + i.val < 126 by omega)
  simp (disch := decide) only [extractRecord, hname, fieldNlen_eq, fieldType_eq, fieldDsize_eq, fieldRsize_eq,
    fieldClen_eq, fieldShsize_eq, hk]

theorem decodeHeader_congr {h h' : Header} (hk : ∀ a : HAddr, a.val < 126 → h a = h' a) :
    decodeHeader h = decodeHeader h' := by
  have hmarker : fieldMarker h = fieldMarker h' := hk 0x00 (by decide)
  have hnlen : fieldNlen h = fieldNlen h' := hk 0x01 (by decide)
  have hminver : fieldMinver h = fieldMinver h' := hk 0x7B (by decide)
  have hstored : fieldCrc h = fieldCrc h' := fieldCrc_congr (hk 0x7C (by decide)) (hk 0x7D (by decide))
  have hcomputed : headerChecksum h = headerChecksum h' := headerChecksum_congr fun a ha => hk a (by omega)
  simp only [decodeHeader, hmarker, hnlen, hminver, hstored, hcomputed, extractRecord_congr hk]

/-! The checksum of a sequence in two parts. -/

theorem x16_append (data data' : List Byte) : x16 (data ++ data') = data'.foldl x16Byte (x16 data) := by
  rw [x16_eq_foldl, List.foldl_append, ← x16_eq_foldl]

/-- A zero register stays zero over a zero byte (70_reset_and_hazards.md R227). -/
theorem x16_replicate_zero (n : Nat) : x16 (List.replicate n 0) = 0 := by
  have hbyte : x16Byte 0 0 = 0 := by decide
  induction n with
  | zero => exact x16_nil
  | succ n ih => rw [List.replicate_succ', x16_concat, ih, hbyte]

/-! From RST to DEC. -/

/-- A pass has taken RST, the bytes of `h` and DEC: the header stands in the buffer, and the registers show what
`decode` answers of it. -/
structure PassDecoded (h : Header) (r : Regs) : Prop where
  inv : r.Inv
  buffer : r.hbuf.read = h
  count : r.hcnt = 128
  unrefused : r.perr = false
  outcome : ShowsDecoded r (decodeHeader h)

/-- A fully loaded header stands in the buffer. -/
theorem Loaded.read_eq {h : Header} {r : Regs} (hl : Loaded (headerBytes h) r) : r.hbuf.read = h := by
  funext a
  rw [hl.stored, List.getD_eq_getElem _ _ (by simp), headerBytes_get]

theorem Loaded.passDecoded {h : Header} {r : Regs} (hl : Loaded (headerBytes h) r) (hinv : r.Inv) :
    PassDecoded h r.decode := by
  have hc : r.hcnt = 128 := BitVec.eq_of_toNat_eq (hl.count.trans (headerBytes_length h))
  exact {
    inv := inv_decode hinv hl.phase
    buffer := by rw [decode_hbuf, hl.read_eq]
    count := (decode_hcnt_maxver r).1.trans hc
    unrefused := (decode_perr r).trans (congrArg Regs.perr hl.others)
    outcome := hl.read_eq ▸ decode_showsDecoded hinv hl.phase hc }

theorem step_dec {s : State} {rest : List PortInput} (hin : s.inputs = .command (encode .dec) :: rest)
    (hph : s.regs.ph = .load) : step s = .next ((s.take rest).setRegs s.regs.decode) :=
  (step_of_decodeWord hin (decodeWord_encode rfl)).trans (exec_dec_of_decode hph rfl)

/-- A run from RST over the bytes of a header and DEC, from any state. -/
theorem run_rst_ldbs_dec {s : State} {h : Header} {rest : List PortInput}
    (hin : s.inputs = .command (encode .rst) :: (ldbInputs (headerBytes h) ++ .command (encode .dec) :: rest)) :
    ∃ t : State, Host.Core.run core 130 s = .next t ∧ t.inputs = rest ∧ PassDecoded h t.regs := by
  have hlen := headerBytes_length h
  obtain ⟨u, hrun, hload, hinputs, -⟩ := loaded_reset.run_ldbInputs (headerBytes h) (by simp)
    (s := (s.take (ldbInputs (headerBytes h) ++ .command (encode .dec) :: rest)).setRegs Regs.reset) rfl rfl
  rw [hlen] at hrun
  have hsound : u.regs.Sound := run_keeps stepKeepsTheRegistersTrueToTheHeader hrun resetStateIsSound
  exact ⟨_, (run_succ_of_step (step_rst hin) 129).trans
    ((run_add_of_run hrun 1).trans (run_succ_of_step (step_dec hinputs hload.phase) 0)), rfl,
    hload.passDecoded hsound.inv⟩

/-! LOC after it. -/

/-- A pass has taken LOC of `n` bytes as well, and ends as `decode` and `locate` say (60_exceptions.md R206). -/
def EndsPass (r : Regs) (n : Offset) : Except HeaderFailure HeaderRecord → Prop
  | .error e => r.ph = .fail ∧ r.status = config.errCode e.error ∧ e.ShownIn r ∧ r.perr = true ∧ r.NoRecord ∧
      r.NoLayout
  | .ok record => r.recordView = record ∧ r.perr = false ∧ r.fsize = n ∧
      ShowsLocated r (locate record.secondaryHeaderSize.toNat record.dataSize.toNat record.resourceSize.toNat
        record.commentLength.toNat n.toNat)

/-- PERR is in nothing that a failure of `decode` reports. -/
theorem shownIn_refuse {r : Regs} {e : HeaderFailure} (h : e.ShownIn r) : e.ShownIn r.refuse := by
  cases e <;> exact h

/-- A failed DEC leaves record and layout at reset, and the LOC after it is refused. -/
theorem PassDecoded.endsPass_of_error {h : Header} {r : Regs} (hp : PassDecoded h r) {e : HeaderFailure}
    (he : decodeHeader h = .error e) (n : Offset) :
    r.ph = .fail ∧ EndsPass r.refuse n (decodeHeader h) := by
  have hshows := hp.outcome
  rw [he] at hshows ⊢
  obtain ⟨hfail, hstatus, hshown, hrecord⟩ := hshows
  have hdec : r.FailedInDec := ⟨hfail, fun h3 => absurd (hstatus.symm.trans h3) (errCode_headerFailure_ne e)⟩
  exact ⟨hfail, hfail, hstatus, shownIn_refuse hshown, rfl, hrecord, (hp.inv.noRecord (.inr hdec)).2⟩

/-- LOC of a decoded header keeps the record and ends as `locate` of its lengths says. -/
theorem PassDecoded.endsPass_of_ok {h : Header} {r : Regs} (hp : PassDecoded h r) {record : HeaderRecord}
    (hok : decodeHeader h = .ok record) (n : Offset) :
    r.ph = .hdr ∧ EndsPass (r.locate n) n (decodeHeader h) := by
  have hshows := hp.outcome
  rw [hok] at hshows ⊢
  obtain ⟨hhdr, -, rfl⟩ := hshows
  exact ⟨hhdr, (sameHeaderAndRecord_locate r n).recordView, (locate_perr r n).trans hp.unrefused,
    (locate_fsize_maxver r n).1, locate_showsLocated hp.inv hhdr n⟩

/-- The step on LOC ends the pass, and leaves the header alone. -/
theorem PassDecoded.step_loc {h : Header} {s : State} (hp : PassDecoded h s.regs) {n : Offset} {rest : List PortInput}
    (hin : s.inputs = .command (encode (.loc n)) :: rest) :
    ∃ t : State, step s = .next t ∧ t.inputs = rest ∧ t.regs.hbuf = s.regs.hbuf ∧ t.regs.hcnt = s.regs.hcnt ∧
      EndsPass t.regs n (decodeHeader h) := by
  have hstep : step s = exec (.loc n) (s.take rest) := step_of_decodeWord hin (decodeWord_encode rfl)
  cases hd : decodeHeader h with
  | error e =>
    obtain ⟨hfail, hends⟩ := hp.endsPass_of_error hd n
    have hrej : Rejects (s.take rest).regs (.loc n) := by simp [Rejects, hfail]
    exact ⟨_, hstep.trans (exec_of_rejects hrej), rfl, rfl, rfl, hd ▸ hends⟩
  | ok record =>
    obtain ⟨hhdr, hends⟩ := hp.endsPass_of_ok hd n
    exact ⟨_, hstep.trans (exec_loc_of_locate hhdr rfl), rfl, locate_hbuf s.regs n,
      (sameHeaderAndRecord_locate s.regs n).2.1, hd ▸ hends⟩

end Sys2Proof.Proofs
end

section
/-! SUPPORT. The obligations of 70_reset_and_hazards.md: each settled from the lemmas above. -/

namespace Sys2Proof.Proofs

open Sys2Proof.Machine Sys2Proof.Laws

/-- Settles O6, by the kinds of input: none, the reset input, a legal word, an illegal one. -/
theorem everyStepEndsInANextState : Obligations.EveryStepEndsInANextState := exists_step_eq_next

/-- Settles O20: every field, and the bytes under the checksum, lie below byte 126. -/
theorem lastTwoHeaderBytesDoNotMatter : Obligations.LastTwoHeaderBytesDoNotMatter := fun _ _ => decodeHeader_congr

/-- Settles O27: the checksum is a fold from 0, and zero bytes keep that 0. -/
theorem leadingZeroBytesLeaveTheChecksumAlone : Obligations.LeadingZeroBytesLeaveTheChecksumAlone := by
  refine ⟨x16_replicate_zero, fun n data => ?_, x16_append⟩
  rw [x16_append, x16_replicate_zero, ← x16_eq_foldl]

/-- Settles O43: the run up to DEC shows the answer of `decode`, and the step on LOC that of `locate`, or is refused
where DEC failed. -/
theorem passEndsAsDecodeAndLocateSay : Obligations.PassEndsAsDecodeAndLocateSay := by
  intro s h n rest
  obtain ⟨u, hrun, hinputs, hp⟩ := run_rst_ldbs_dec (h := h) (rest := .command (encode (.loc n)) :: rest)
    (s := { s with inputs := .command (encode .rst) ::
      (ldbInputs (headerBytes h) ++ .command (encode .dec) :: .command (encode (.loc n)) :: rest) }) rfl
  obtain ⟨t, hstep, hrest, hbuf, hcnt, hends⟩ := hp.step_loc hinputs
  refine ⟨t, (run_add_of_run hrun 1).trans (run_succ_of_step hstep 0), hrest,
    fun a => by rw [hbuf, hp.buffer], hcnt.trans hp.count, hends⟩

/-- Settles O11: both sources put the registers at reset and take their one input. -/
theorem hardwareResetAndRstHaveTheSameEffect : Obligations.HardwareResetAndRstHaveTheSameEffect :=
  fun _ _ => ⟨rfl, step_hardReset rfl, step_rst rfl⟩

end Sys2Proof.Proofs
end
